-- ==== Sys2Proof/Word.lean ====
section
/-! DEFINITION. Word sizes of the block: bytes of the ROM (20_memory.md R65), 16-bit fields (00_scope.md R8) and the
32-bit words of the host bus (40_host_interface.md R100). All values are unsigned (R10). -/

namespace Sys2Proof

/-- One byte of the ROM, one index element, one 8-bit duration field (R65, R84 to R86). -/
abbrev Byte := BitVec 8

/-- A 16-bit field: `LEN`, `CARRIER`, `POS` and the output durations (R8). -/
abbrev Half := BitVec 16

/-- A word of the host bus (R100). -/
abbrev Word := BitVec 32

/-- A ROM base address. `ROM_AW` is at most 24 (R7); a base register holds its low `ROM_AW` bits here and
zeros above them. -/
abbrev RomBase := BitVec 24

end Sys2Proof
end

