-- ==== Sys2Proof/Config.lean ====
section
/-! DEFINITION. The build parameters of IRDX (00_scope.md R3, R6, R7, R9; 10_state.md R42; 60_exceptions.md R214) and the
index packing (10_state.md R31). The parameters stand in `State` as one field that no step writes, so a claim about every state
is a claim about every build. -/

namespace Sys2Proof

/-- `TW`, the width of a duration field: 8 or 16 bits and nothing else (R6; a 32-bit field is out of scope, R5). -/
inductive TimingWidth where
  /-- `TW = 8`, entries in format ENT16 (R86). -/
  | tw8
  /-- `TW = 16`, entries in format ENT32 (R87). -/
  | tw16
  deriving DecidableEq, Repr

/-- The index packing that `MODE.PACK` selects (R31). -/
inductive Packing where
  /-- `PACK = 0`: two 4-bit indices per byte (R84). -/
  | nibble
  /-- `PACK = 1`: one index per byte (R85). -/
  | byte
  deriving DecidableEq, Repr

/-- The parameters a build fixes. -/
structure Config where
  /-- `TW` (R6). -/
  tw : TimingWidth
  /-- `ROM_AW`, the ROM address width in bits (R7). -/
  romAw : Nat
  /-- `ROM_SIZE`, the number of implemented ROM bytes (R7). -/
  romSize : Nat
  /-- Whether this build has the optional index latch (R42: "an implementation may"). -/
  latch : Bool
  /-- `ROM_LAT` in cycles, at least 1; no rule depends on it (R9). -/
  romLat : Nat
  /-- `IRDX_BASE`, the block's base address on the host's bus, left to the platform (R214); no rule depends on it. -/
  irdxBase : Nat
  deriving DecidableEq, Repr

/-- The ranges R7 and R9 give the parameters. -/
abbrev Config.wf (c : Config) : Prop :=
  8 ≤ c.romAw ∧ c.romAw ≤ 24 ∧ 1 ≤ c.romSize ∧ c.romSize ≤ 2 ^ c.romAw ∧ 1 ≤ c.romLat

/-- The build of `State.reset`: `ROM_AW = 16` and `ROM_SIZE = 2^16` are the defaults of R7; `TW`, the latch, the
latency and the base have no default in the spec (DESIGN CHOICE, notes/assumptions/2.md). -/
def Config.default : Config :=
  { tw := .tw8, romAw := 16, romSize := 65536, latch := false, romLat := 1, irdxBase := 0 }

end Sys2Proof
end

