-- ==== Sys2Proof/Machine/Memory.lean ====
section
/-! DEFINITION. The ROM image (00_scope.md R7, 20_memory.md R60): a list of (address, byte) cells in one canonical form, addresses
strictly rising and no cell equal to what an unlisted address reads as. Any contents `ROM : [0, ROM_SIZE) → bits(8)` have exactly
one such list. The block never writes it (R66); `Memory.write` is how a platform or a test makes an image. -/

namespace Sys2Proof.Machine

/-- A ROM image. -/
abbrev Memory := List Host.Cell

/-- What an unlisted address reads as. The contents are a parameter of the model (R7); this value is only the form of the list
(DESIGN CHOICE, notes/assumptions/3.md). -/
def unlistedByte : Byte := 0x00#8

/-- `ROM[a]`. -/
def Memory.read : Memory → Nat → Byte
  | [], _ => unlistedByte
  | (k, v) :: m, a => if k = a then v else Memory.read m a

/-- The image with the byte `b` at `a`. -/
def Memory.write : Memory → Nat → Byte → Memory
  | [], a, b => if b = unlistedByte then [] else [(a, b)]
  | (k, v) :: m, a, b =>
    if a < k then (if b = unlistedByte then (k, v) :: m else (a, b) :: (k, v) :: m)
    else if a = k then (if b = unlistedByte then m else (a, b) :: m)
    else (k, v) :: Memory.write m a b

/-- The image with the bytes from `a` upwards. -/
def Memory.writeBytes : Memory → Nat → List Byte → Memory
  | m, _, [] => m
  | m, a, b :: bs => Memory.writeBytes (Memory.write m a b) (a + 1) bs

/-- The canonical form of the cells at addresses from `lo` upwards. -/
def Memory.wfFrom : Nat → Memory → Bool
  | _, [] => true
  | lo, (k, v) :: m => decide (lo ≤ k) && decide (v ≠ unlistedByte) && Memory.wfFrom (k + 1) m

/-- The canonical form of an image. -/
def Memory.wf (m : Memory) : Bool := Memory.wfFrom 0 m

end Sys2Proof.Machine
end

