-- ==== Sys2Proof/Machine/State.lean ====
section
/-! DEFINITION. The state of IRDX and of what stands around it (10_state.md). Plain data: the block's registers, its constant
parameters and ROM, the schedule of the steps to come, and what has gone out at the ports. -/

namespace Sys2Proof.Machine

/-- `STATUS.STATE` (R26). The encodings 5, 6 and 7 are never produced and have no constructor. -/
inductive SeqState where
  /-- 0: no run has started since reset or ABORT. -/
  | idle
  /-- 1: the validation pass. -/
  | check
  /-- 2: the output pass. -/
  | emit
  /-- 3: the last run completed. -/
  | done
  /-- 4: the last run stopped on a data-integrity error. -/
  | error
  deriving DecidableEq, Repr

/-- `STATUS.ERRCODE` (R27, R200). The encoding 3 is never produced and has no constructor. -/
inductive ErrCode where
  /-- 0: no error. -/
  | none
  /-- 1: a resolved index is not below `W_DICT_N` (R201). -/
  | indexRange
  /-- 2: a ROM address the run needs is not below `ROM_SIZE` (R202). -/
  | romRange
  deriving DecidableEq, Repr

/-- The fields of one record: the descriptor registers (R31 to R36) and the working registers (R39) have this shape. -/
structure Record where
  /-- `DICT_BASE` (R32): the low `ROM_AW` bits, zeros above. -/
  dictBase : RomBase
  /-- `DICT_N` (R33). -/
  dictN : BitVec 9
  /-- `SEQ_BASE` (R34): the low `ROM_AW` bits, zeros above. -/
  seqBase : RomBase
  /-- `LEN` (R35). -/
  len : Half
  /-- `CARRIER` (R36). -/
  carrier : Half
  /-- `MODE.PACK` (R31). -/
  pack : Packing
  deriving DecidableEq, Repr

/-- One pair as the consumer receives it: `(OUT_ON, OUT_OFF, OUT_LAST, POS)` (R167). -/
structure Transfer where
  on : Half
  off : Half
  last : Bool
  pos : Half
  deriving DecidableEq, Repr

/-- One atomic step of an agent (R12), or a clock edge with `rst = 1` (R230). -/
inductive Event where
  /-- A host access: `hwe`, `haddr[5:0]`, `hwdata` (R100); `WR`, `RD`, `CMD` of a host script (R93). -/
  | host (we : Bool) (haddr : BitVec 6) (hwdata : Word)
  /-- The sequencer takes its step, if it has one; `STEP` of a host script (R93). -/
  | seq
  /-- The consumer is ready; `XFER` of a host script (R93, R167). -/
  | xfer
  /-- `rst = 1` at a rising edge (R230). -/
  | rst
  deriving DecidableEq, Repr

/-- The inputs of one clock edge (R21). `tick` says whether the sequencer completes a step at this edge: the number of cycles
per step is open (R9). -/
structure EdgeInputs where
  rst : Bool
  hsel : Bool
  hwe : Bool
  haddr : BitVec 6
  hwdata : Word
  outReady : Bool
  tick : Bool
  deriving DecidableEq, Repr

/-- A script entry that stands for several events. -/
inductive Macro where
  /-- One clock edge, its events in the order of R207. -/
  | edge (p : EdgeInputs)
  /-- `LOAD` (R94). -/
  | load (dict n seq len carrier pack : Word)
  /-- `RUN` (R94). -/
  | run
  /-- The rest of a `RUN`: until `STATE` is DONE or ERROR. -/
  | runLoop
  /-- `POLL` (R94). `others` is no part of it: what the schedule has the other agents do between two of its reads, one list for
  each gap (R12; notes/assumptions/14.md). -/
  | poll (others : List (List Event))
  /-- The rest of a `POLL` after a read: until the status read has `BUSY = 0`. -/
  | pollLoop (others : List (List Event))
  deriving DecidableEq, Repr

/-- One entry of the schedule. -/
inductive Line where
  | act (e : Event)
  | expand (m : Macro)
  deriving DecidableEq, Repr

structure State where
  /-- The build parameters; constant. -/
  cfg : Config
  /-- The ROM contents (R7); constant. -/
  rom : Memory
  /-- The descriptor registers `DICT_BASE`, `DICT_N`, `SEQ_BASE`, `LEN`, `CARRIER`, `MODE.PACK` (R31 to R36). -/
  desc : Record
  /-- The working registers `W_*` (R39). -/
  work : Record
  /-- `STATUS.STATE` (R26). -/
  seqState : SeqState
  /-- `STATUS.ERRCODE` (R27). -/
  errCode : ErrCode
  /-- `STATUS.ERRIDX` (R29). -/
  errIdx : BitVec 8
  /-- `STATUS.CMDERR` (R28). -/
  cmdErr : Bool
  /-- `POS` (R30). -/
  pos : Half
  /-- `OUT_VALID` (R40). -/
  outValid : Bool
  /-- `OUT_ON` (R40). -/
  outOn : Half
  /-- `OUT_OFF` (R40). -/
  outOff : Half
  /-- `OUT_LAST` (R40). -/
  outLast : Bool
  /-- The index latch of a build that has one (R42). -/
  latch : Byte
  /-- The port `rom_en` (R61). -/
  romEn : Bool
  /-- The port `hrdata`: what the host's last read returned (R100). -/
  hrdata : Word
  /-- The model's record: the ROM addresses driven since the last accepted START or reset, oldest first (R61, R74). -/
  romReads : List Nat
  /-- The model's record: the pairs the consumer received since the last accepted START or reset, oldest first (R167). -/
  delivered : List Transfer
  /-- The model's record: the pairs of the runs before, oldest first; transferred pairs stay transferred (R116). -/
  deliveredBefore : List Transfer
  /-- The model's schedule: which agent steps next (R12). -/
  script : List Line
  deriving DecidableEq, Repr

/-- How the machine stops. -/
inductive Fault where
  /-- Raised by the ROM read of the EMIT pass (`withRomByte`) at an address `a ≥ ROM_SIZE`, where `MemRead` is not defined (R11).
  Safe: the CHECK pass keeps every run from it (R164), so only states that no run reaches raise it. -/
  | romAddress (a : Nat)
  deriving DecidableEq, Repr

/-- Why an instruction has no meaning. -/
inductive Refusal where
  /-- Raised by no arm of `exec`: every instruction of the table has its meaning. Safe. -/
  | notModelled (mnemonic : String)
  deriving DecidableEq, Repr

/-- All fields zero, nibble packing: the reset value of the descriptor and working registers (R45). -/
def Record.zero : Record :=
  { dictBase := 0, dictN := 0, seqBase := 0, len := 0, carrier := 0, pack := .nibble }

/-- The state after reset of a build with parameters `c` and ROM `rom` (R45): every register as the table of R45 gives it. The
index latch's value is unspecified and unobservable (R42); 0 is the model's (DESIGN CHOICE, notes/assumptions/6.md). -/
def State.resetOf (c : Config) (rom : Memory) : State :=
  { cfg := c, rom := rom
    desc := Record.zero, work := Record.zero
    seqState := .idle, errCode := .none, errIdx := 0, cmdErr := false, pos := 0
    outValid := false, outOn := 0, outOff := 0, outLast := false
    latch := 0, romEn := false, hrdata := 0
    romReads := [], delivered := [], deliveredBefore := [], script := [] }

/-- The machine right after reset, with the default build, a ROM with nothing listed and an empty schedule. -/
def State.reset : State := State.resetOf Config.default []

end Sys2Proof.Machine
end

