-- ==== Sys2Proof/Machine/Flags.lean ====
section
/-! DEFINITION. The status fields and the words the read-only registers show (10_state.md R24 to R29, R37;
40_host_interface.md R119 to R121). IRDX has no other flags (R23). -/

namespace Sys2Proof.Machine

/-- The encoding of `STATE` (R26). -/
def seqStateCode : SeqState → BitVec 3
  | .idle => 0
  | .check => 1
  | .emit => 2
  | .done => 3
  | .error => 4

/-- The encoding of `ERRCODE` (R27). -/
def errCodeCode : ErrCode → BitVec 2
  | .none => 0
  | .indexRange => 1
  | .romRange => 2

/-- `BUSY`, computed from `STATE` (R25). -/
def busy (s : State) : Bool :=
  match s.seqState with
  | .check | .emit => true
  | .idle | .done | .error => false

/-- One bit of a register. -/
def bit (b : Bool) : BitVec 1 := BitVec.ofBool b

/-- The word of `STATUS` (R25, R119): ERRIDX [23:16], OUT_VALID [9], CMDERR [8], ERRCODE [5:4], BUSY [3], STATE [2:0],
every other bit 0. -/
def statusWord (s : State) : Word :=
  0#8 ++ s.errIdx ++ 0#6 ++ bit s.outValid ++ bit s.cmdErr ++ 0#2 ++ errCodeCode s.errCode ++ bit (busy s) ++
    seqStateCode s.seqState

/-- The word of `CFG` (R37, R121): `ROM_AW` at [12:8], `TW16` at [0]. -/
def cfgWord (c : Config) : Word :=
  0#19 ++ BitVec.ofNat 5 c.romAw ++ 0#7 ++ bit (decide (c.tw = .tw16))

/-- The bit `MODE.PACK` (R31). -/
def packBit : Packing → Bool
  | .nibble => false
  | .byte => true

/-- The packing a bit of `MODE.PACK` selects (R31). -/
def packOfBit : Bool → Packing
  | false => .nibble
  | true => .byte

/-- The low `ROM_AW` bits of a data word, as a base register stores them (R104, R106). -/
def baseOfWord (romAw : Nat) (d : Word) : RomBase := BitVec.ofNat 24 (d.toNat % 2 ^ romAw)

end Sys2Proof.Machine
end

