-- ==== Sys2Proof/Syntax.lean ====
section
/-! DEFINITION. The operations of spec/opcode_table.json, one constructor per mnemonic (the seven `CMD.reserved` rows are
seven masks of one opcode range 0x03 to 0xFF with one rule, R117, and are one constructor with the opcode as its operand). A
register write carries the data word `hwdata` that comes with it on the bus (30_encoding.md R81); an index operand carries both
nibbles of its byte (R84). -/

namespace Sys2Proof

inductive Instr where
  /-- `CMD NOP` (R113). -/
  | nop
  /-- `CMD START`, accepted or rejected by the state (R114, R115). -/
  | start
  /-- `CMD ABORT` (R116). -/
  | abort
  /-- A reserved command opcode, 0x03 to 0xFF (R117). -/
  | cmdReserved (op : BitVec 8)
  /-- `WR CMD`: the data word is a CMD32 command (R82). -/
  | wrCmd (hwdata : Word)
  /-- `WR STATUS`: read-only (R109). -/
  | wrStatus (hwdata : Word)
  /-- `WR POS`: read-only (R109). -/
  | wrPos (hwdata : Word)
  /-- `WR MODE` (R103). -/
  | wrMode (hwdata : Word)
  /-- `WR DICT_BASE` (R104). -/
  | wrDictBase (hwdata : Word)
  /-- `WR DICT_N` (R105). -/
  | wrDictN (hwdata : Word)
  /-- `WR SEQ_BASE` (R106). -/
  | wrSeqBase (hwdata : Word)
  /-- `WR LEN` (R107). -/
  | wrLen (hwdata : Word)
  /-- `WR CARRIER` (R108). -/
  | wrCarrier (hwdata : Word)
  /-- `WR CFG`: read-only (R109). -/
  | wrCfg (hwdata : Word)
  /-- `RD CMD` (R111). -/
  | rdCmd
  /-- `RD STATUS` (R119). -/
  | rdStatus
  /-- `RD POS` (R120). -/
  | rdPos
  /-- `RD MODE` (R112). -/
  | rdMode
  /-- `RD DICT_BASE` (R112). -/
  | rdDictBase
  /-- `RD DICT_N` (R112). -/
  | rdDictN
  /-- `RD SEQ_BASE` (R112). -/
  | rdSeqBase
  /-- `RD LEN`, the source's `length_of` (R112, R118). -/
  | rdLen
  /-- `RD CARRIER`, the source's `carrier_of` (R112, R118). -/
  | rdCarrier
  /-- `RD CFG` (R121). -/
  | rdCfg
  /-- A write to the unmapped offset 0x28 (R110). -/
  | wrUnmapped28 (hwdata : Word)
  /-- A read of the unmapped offset 0x28 (R110). -/
  | rdUnmapped28
  /-- A write to the unmapped offset 0x2C (R110). -/
  | wrUnmapped2C (hwdata : Word)
  /-- A read of the unmapped offset 0x2C (R110). -/
  | rdUnmapped2C
  /-- A write to the unmapped offset 0x30 (R110). -/
  | wrUnmapped30 (hwdata : Word)
  /-- A read of the unmapped offset 0x30 (R110). -/
  | rdUnmapped30
  /-- A write to the unmapped offset 0x34 (R110). -/
  | wrUnmapped34 (hwdata : Word)
  /-- A read of the unmapped offset 0x34 (R110). -/
  | rdUnmapped34
  /-- A write to the unmapped offset 0x38 (R110). -/
  | wrUnmapped38 (hwdata : Word)
  /-- A read of the unmapped offset 0x38 (R110). -/
  | rdUnmapped38
  /-- A write to the unmapped offset 0x3C (R110). -/
  | wrUnmapped3C (hwdata : Word)
  /-- A read of the unmapped offset 0x3C (R110). -/
  | rdUnmapped3C
  /-- A nibble-packed index byte taken at an even position: its index is `hi` (R84, R141). -/
  | idxNibbleHi (hi lo : BitVec 4)
  /-- A nibble-packed index byte taken at an odd position: its index is `lo` (R84, R141). -/
  | idxNibbleLo (hi lo : BitVec 4)
  /-- A byte-packed index byte (R85, R142). -/
  | idxByte (index : BitVec 8)
  /-- A dictionary entry of a `TW = 8` build (R86, R145). -/
  | entryTw8 (on off : BitVec 8)
  /-- A dictionary entry of a `TW = 16` build (R87, R146). -/
  | entryTw16 (on off : BitVec 16)
  deriving DecidableEq, Repr

end Sys2Proof
end

