-- ==== Sys2Proof/WellFormed.lean ====
section
/-! DEFINITION. Well-formed instructions. The types bound every operand but one: a reserved command opcode is 0x03 to 0xFF
(30_encoding.md R83); 0x00 to 0x02 are NOP, START and ABORT. -/

namespace Sys2Proof

/-- The check on the operands of an instruction. -/
def wellFormed : Instr → Bool
  | .cmdReserved op => decide (3 ≤ op.toNat)
  | .nop | .start | .abort => true
  | .wrCmd _ | .wrStatus _ | .wrPos _ | .wrMode _ | .wrDictBase _ | .wrDictN _ | .wrSeqBase _ | .wrLen _ | .wrCarrier _
  | .wrCfg _ => true
  | .rdCmd | .rdStatus | .rdPos | .rdMode | .rdDictBase | .rdDictN | .rdSeqBase | .rdLen | .rdCarrier | .rdCfg => true
  | .wrUnmapped28 _ | .wrUnmapped2C _ | .wrUnmapped30 _ | .wrUnmapped34 _ | .wrUnmapped38 _ | .wrUnmapped3C _ => true
  | .rdUnmapped28 | .rdUnmapped2C | .rdUnmapped30 | .rdUnmapped34 | .rdUnmapped38 | .rdUnmapped3C => true
  | .idxNibbleHi _ _ | .idxNibbleLo _ _ | .idxByte _ => true
  | .entryTw8 _ _ | .entryTw16 _ _ => true

end Sys2Proof
end

