-- ==== Sys2Proof/Decode.lean ====
section
/-! DEFINITION. The decoder and, after it, the encoder (30_encoding.md R80 to R92; spec/opcode_table.json). What format a run of
bits has is not in the bits: it is where they arrive (the host bus, the data word of a write to CMD, an index byte or a dictionary
entry in ROM), so `decode` takes the format and the bytes. -/

namespace Sys2Proof

/-- The formats of R80. An IDXN8 byte is read at an even or at an odd position (R84). -/
inductive Format where
  /-- A host access: `we`, `offset[5:0]` (R81), then on a write the four bytes of `hwdata`. -/
  | hostacc7
  /-- The data word of a write to CMD (R82). -/
  | cmd32
  /-- A nibble-packed index byte, of an odd position or not (R84). -/
  | idxn8 (odd : Bool)
  /-- A byte-packed index byte (R85). -/
  | idxb8
  /-- A dictionary entry, `TW = 8` (R86). -/
  | ent16
  /-- A dictionary entry, `TW = 16` (R87). -/
  | ent32
  deriving DecidableEq, Repr

/-- Why bytes are no instruction of a format. -/
inductive Reject where
  /-- Fewer bytes than the format has. -/
  | truncated (f : Format) (bytes : Nat)
  /-- A host-access byte with bit 7 set: HOSTACC7 has 7 bits (R81). -/
  | hostAccessBit7 (b : Byte)
  deriving DecidableEq, Repr

/-! ## Byte order and bit fields -/

/-- A 16-bit field from its bytes, lower address first (R62, R87). -/
def le16 (b0 b1 : Byte) : Half := b1 ++ b0

/-- A 32-bit word from its bytes, lower address first (the model's byte form of a bus word, notes/assumptions/7.md). -/
def le32 (b0 b1 b2 b3 : Byte) : Word := b3 ++ b2 ++ b1 ++ b0

/-- The bytes of a 16-bit field, lower address first. -/
def bytes16 (v : Half) : List Byte := [v.extractLsb' 0 8, v.extractLsb' 8 8]

/-- The bytes of a 32-bit word, lower address first. -/
def bytes32 (v : Word) : List Byte :=
  [v.extractLsb' 0 8, v.extractLsb' 8 8, v.extractLsb' 16 8, v.extractLsb' 24 8]

/-- Bits [7:4] of an index byte (R84). -/
def hiNibble (b : Byte) : BitVec 4 := b.extractLsb' 4 4

/-- Bits [3:0] of an index byte (R84). -/
def loNibble (b : Byte) : BitVec 4 := b.extractLsb' 0 4

/-! ## The decoders of the five formats -/

/-- CMD32 (R82, R83): the opcode is bits [7:0]; bits [31:8] are ignored. -/
def decodeCmd (w : Word) : Instr :=
  let op := w.extractLsb' 0 8
  if op = 0x00#8 then .nop
  else if op = 0x01#8 then .start
  else if op = 0x02#8 then .abort
  else .cmdReserved op

/-- HOSTACC7 (R81): bit 6 is `we`, the register is `offset[5:2]`, bits [1:0] are ignored; `hwdata` is the data word of a
write. -/
def decodeHost (acc : BitVec 7) (hwdata : Word) : Instr :=
  match acc.getLsbD 6, acc.extractLsb' 2 4 with
  | true, 0x0#4 => .wrCmd hwdata
  | true, 0x1#4 => .wrStatus hwdata
  | true, 0x2#4 => .wrPos hwdata
  | true, 0x3#4 => .wrMode hwdata
  | true, 0x4#4 => .wrDictBase hwdata
  | true, 0x5#4 => .wrDictN hwdata
  | true, 0x6#4 => .wrSeqBase hwdata
  | true, 0x7#4 => .wrLen hwdata
  | true, 0x8#4 => .wrCarrier hwdata
  | true, 0x9#4 => .wrCfg hwdata
  | true, 0xa#4 => .wrUnmapped28 hwdata
  | true, 0xb#4 => .wrUnmapped2C hwdata
  | true, 0xc#4 => .wrUnmapped30 hwdata
  | true, 0xd#4 => .wrUnmapped34 hwdata
  | true, 0xe#4 => .wrUnmapped38 hwdata
  | true, _ => .wrUnmapped3C hwdata
  | false, 0x0#4 => .rdCmd
  | false, 0x1#4 => .rdStatus
  | false, 0x2#4 => .rdPos
  | false, 0x3#4 => .rdMode
  | false, 0x4#4 => .rdDictBase
  | false, 0x5#4 => .rdDictN
  | false, 0x6#4 => .rdSeqBase
  | false, 0x7#4 => .rdLen
  | false, 0x8#4 => .rdCarrier
  | false, 0x9#4 => .rdCfg
  | false, 0xa#4 => .rdUnmapped28
  | false, 0xb#4 => .rdUnmapped2C
  | false, 0xc#4 => .rdUnmapped30
  | false, 0xd#4 => .rdUnmapped34
  | false, 0xe#4 => .rdUnmapped38
  | false, _ => .rdUnmapped3C

/-- IDXN8 (R84, R141). -/
def decodeNibbleByte (odd : Bool) (b : Byte) : Instr :=
  if odd then .idxNibbleLo (hiNibble b) (loNibble b) else .idxNibbleHi (hiNibble b) (loNibble b)

/-- The index byte of position `i` under a packing (R84, R85, R92: the packing is not told by the bytes). -/
def decodeIndex (p : Packing) (i : Nat) (b : Byte) : Instr :=
  match p with
  | .nibble => decodeNibbleByte (decide (i % 2 = 1)) b
  | .byte => .idxByte b

/-- The decoder: the instruction a format's bytes are, with the bytes left over, or the reason there is none. -/
def decode (f : Format) (bytes : List Byte) : Except Reject (Instr × List Byte) :=
  match f, bytes with
  | .hostacc7, b :: rest =>
    if b.getLsbD 7 then .error (.hostAccessBit7 b)
    else if b.getLsbD 6 then
      match rest with
      | d0 :: d1 :: d2 :: d3 :: rest' => .ok (decodeHost (b.extractLsb' 0 7) (le32 d0 d1 d2 d3), rest')
      | _ => .error (.truncated .hostacc7 bytes.length)
    else .ok (decodeHost (b.extractLsb' 0 7) 0, rest)
  | .cmd32, d0 :: d1 :: d2 :: d3 :: rest => .ok (decodeCmd (le32 d0 d1 d2 d3), rest)
  | .idxn8 odd, b :: rest => .ok (decodeNibbleByte odd b, rest)
  | .idxb8, b :: rest => .ok (.idxByte b, rest)
  | .ent16, b0 :: b1 :: rest => .ok (.entryTw8 b0 b1, rest)
  | .ent32, b0 :: b1 :: b2 :: b3 :: rest => .ok (.entryTw16 (le16 b0 b1) (le16 b2 b3), rest)
  | f, bs => .error (.truncated f bs.length)

/-! ## The encoder -/

/-- The format an instruction belongs to. -/
def formatOf : Instr → Format
  | .nop | .start | .abort | .cmdReserved _ => .cmd32
  | .idxNibbleHi _ _ => .idxn8 false
  | .idxNibbleLo _ _ => .idxn8 true
  | .idxByte _ => .idxb8
  | .entryTw8 _ _ => .ent16
  | .entryTw16 _ _ => .ent32
  | .wrCmd _ | .rdCmd => .hostacc7
  | .wrStatus _ | .rdStatus => .hostacc7
  | .wrPos _ | .rdPos => .hostacc7
  | .wrMode _ | .rdMode => .hostacc7
  | .wrDictBase _ | .rdDictBase => .hostacc7
  | .wrDictN _ | .rdDictN => .hostacc7
  | .wrSeqBase _ | .rdSeqBase => .hostacc7
  | .wrLen _ | .rdLen => .hostacc7
  | .wrCarrier _ | .rdCarrier => .hostacc7
  | .wrCfg _ | .rdCfg => .hostacc7
  | .wrUnmapped28 _ | .rdUnmapped28 => .hostacc7
  | .wrUnmapped2C _ | .rdUnmapped2C => .hostacc7
  | .wrUnmapped30 _ | .rdUnmapped30 => .hostacc7
  | .wrUnmapped34 _ | .rdUnmapped34 => .hostacc7
  | .wrUnmapped38 _ | .rdUnmapped38 => .hostacc7
  | .wrUnmapped3C _ | .rdUnmapped3C => .hostacc7

/-- The bytes of an instruction (R81 to R87); ignored bits are written as zeros. -/
def encode : Instr → List Byte
  | .nop => bytes32 0x00000000#32
  | .start => bytes32 0x00000001#32
  | .abort => bytes32 0x00000002#32
  | .cmdReserved op => bytes32 (op.setWidth 32)
  | .idxNibbleHi hi lo | .idxNibbleLo hi lo => [hi ++ lo]
  | .idxByte index => [index]
  | .entryTw8 on off => [on, off]
  | .entryTw16 on off => bytes16 on ++ bytes16 off
  | .wrCmd hwdata => 0x40#8 :: bytes32 hwdata
  | .wrStatus hwdata => 0x44#8 :: bytes32 hwdata
  | .wrPos hwdata => 0x48#8 :: bytes32 hwdata
  | .wrMode hwdata => 0x4C#8 :: bytes32 hwdata
  | .wrDictBase hwdata => 0x50#8 :: bytes32 hwdata
  | .wrDictN hwdata => 0x54#8 :: bytes32 hwdata
  | .wrSeqBase hwdata => 0x58#8 :: bytes32 hwdata
  | .wrLen hwdata => 0x5C#8 :: bytes32 hwdata
  | .wrCarrier hwdata => 0x60#8 :: bytes32 hwdata
  | .wrCfg hwdata => 0x64#8 :: bytes32 hwdata
  | .wrUnmapped28 hwdata => 0x68#8 :: bytes32 hwdata
  | .wrUnmapped2C hwdata => 0x6C#8 :: bytes32 hwdata
  | .wrUnmapped30 hwdata => 0x70#8 :: bytes32 hwdata
  | .wrUnmapped34 hwdata => 0x74#8 :: bytes32 hwdata
  | .wrUnmapped38 hwdata => 0x78#8 :: bytes32 hwdata
  | .wrUnmapped3C hwdata => 0x7C#8 :: bytes32 hwdata
  | .rdCmd => [0x00#8]
  | .rdStatus => [0x04#8]
  | .rdPos => [0x08#8]
  | .rdMode => [0x0C#8]
  | .rdDictBase => [0x10#8]
  | .rdDictN => [0x14#8]
  | .rdSeqBase => [0x18#8]
  | .rdLen => [0x1C#8]
  | .rdCarrier => [0x20#8]
  | .rdCfg => [0x24#8]
  | .rdUnmapped28 => [0x28#8]
  | .rdUnmapped2C => [0x2C#8]
  | .rdUnmapped30 => [0x30#8]
  | .rdUnmapped34 => [0x34#8]
  | .rdUnmapped38 => [0x38#8]
  | .rdUnmapped3C => [0x3C#8]

/-! ## The words of spec/opcode_table.json -/

/-- The format in which a table word is read, from its number of bits. Words of one width can belong to several formats of
the table (HOSTACC7, IDXN8, IDXB8; CMD32, ENT32): an aligned offset below 0x80 is read as a host access, any other word of 8
bits as a command opcode whose ignored bits are zero, 16 bits as ENT16 and 32 bits as CMD32 (DESIGN CHOICE,
notes/assumptions/8.md). The step itself never guesses: it knows where its bits come from. -/
def tableFormat (nbits w : Nat) : Option Format :=
  if nbits ≤ 8 then (if w < 128 ∧ w % 4 = 0 then some .hostacc7 else some .cmd32)
  else if nbits ≤ 16 then some .ent16
  else if nbits ≤ 32 then some .cmd32
  else none

/-- The bytes of a table word, lowest first, then zeros up to the longest instruction. -/
def tableBytes (w : Nat) : List Byte := bytes32 (BitVec.ofNat 32 w) ++ [0x00#8]

/-- The instruction the decoder reads from a table word. -/
def decodeTableWord (nbits w : Nat) : Option Instr :=
  match tableFormat nbits w with
  | none => none
  | some f =>
    match decode f (tableBytes w) with
    | .ok (i, _) => some i
    | .error _ => none

end Sys2Proof
end

