-- ==== Sys2Proof/Machine/Operands.lean ====
section
/-! DEFINITION. The nibble unpacker and the dictionary lookup (41_unpacker.md): where the index of a position is, what it is,
where its entry is, what the entry holds, and whether the position can be resolved. Pure functions of the parameters, the ROM and
one record (in a run, the working registers, R39). Addresses are natural numbers and do not wrap (R10). -/

namespace Sys2Proof.Machine

/-- `ESZ = TW / 4`, the bytes of an entry (R6). -/
def esz (c : Config) : Nat :=
  match c.tw with
  | .tw8 => 2
  | .tw16 => 4

/-- `seqAddr(i)` (R140). -/
def seqAddr (r : Record) (i : Nat) : Nat :=
  r.seqBase.toNat +
    match r.pack with
    | .nibble => i / 2
    | .byte => i

/-- The index of position `i` in its index byte (R141, R142). -/
def indexOfByte (p : Packing) (i : Nat) (b : Byte) : BitVec 8 :=
  match p with
  | .nibble => if i % 2 = 0 then (hiNibble b).setWidth 8 else (loNibble b).setWidth 8
  | .byte => b

/-- `idx(i)` (R141, R142). -/
def idx (rom : Memory) (r : Record) (i : Nat) : BitVec 8 := indexOfByte r.pack i (rom.read (seqAddr r i))

/-- `seqBytes(L)` (R143, R88). -/
def seqBytes (p : Packing) (len : Nat) : Nat :=
  match p with
  | .nibble => (len + 1) / 2
  | .byte => len

/-- `entryAddr(k)` (R144). -/
def entryAddr (c : Config) (r : Record) (k : BitVec 8) : Nat := r.dictBase.toNat + k.toNat * esz c

/-- `entry(k)` (R145 for `TW = 8`, R146 for `TW = 16`). -/
def entry (c : Config) (rom : Memory) (r : Record) (k : BitVec 8) : Half × Half :=
  let e := entryAddr c r k
  match c.tw with
  | .tw8 => ((rom.read e).setWidth 16, (rom.read (e + 1)).setWidth 16)
  | .tw16 => (le16 (rom.read e) (rom.read (e + 1)), le16 (rom.read (e + 2)) (rom.read (e + 3)))

/-- What the check of a position answers (R147). -/
inductive CheckResult where
  | ok
  | err (code : ErrCode) (k : BitVec 8)
  deriving DecidableEq, Repr

/-- The tests of R147 that follow the reading of the index `k`: the index range first, then the range of its entry. -/
def checkIndex (c : Config) (r : Record) (k : BitVec 8) : CheckResult :=
  if k.toNat ≥ r.dictN.toNat then .err .indexRange k
  else if entryAddr c r k + esz c - 1 ≥ c.romSize then .err .romRange k
  else .ok

/-- `checkPos(i)` (R147, R206): the index byte's address, then the index, then the entry's range. -/
def checkPos (c : Config) (rom : Memory) (r : Record) (i : Nat) : CheckResult :=
  if seqAddr r i ≥ c.romSize then .err .romRange 0
  else checkIndex c r (idx rom r i)

/-- `pair(i)` (R148). -/
def pair (c : Config) (rom : Memory) (r : Record) (i : Nat) : Half × Half := entry c rom r (idx rom r i)

end Sys2Proof.Machine
end

