-- ==== Sys2Proof/Machine/Ops.lean ====
section
/-! DEFINITION. The operations the meanings share: host register access, the ROM read, the output primitive, the entry into the
error state and the ways out of it, the transfer and the reset. -/

namespace Sys2Proof.Machine

/-! ## Host register access (40_host_interface.md) -/

/-- A read returns `v` on `hrdata` and changes nothing else (R101). -/
def hostRead (v : Word) (s : State) : State := { s with hrdata := v }

/-- A write to the descriptor registers (R102). -/
def writeDesc (r : Record) (s : State) : State := { s with desc := r }

/-- A command error sets `CMDERR` and nothing else (R28, R204). -/
def commandError (s : State) : State := { s with cmdErr := true }

/-! ## The ROM port (20_memory.md) -/

/-- `rom_en = 1`, `rom_addr = a` (R61). -/
def romDrive (a : Nat) (s : State) : State := { s with romEn := true, romReads := s.romReads ++ [a] }

/-- The read is over: `rom_en = 0` (R61). -/
def romRelease (s : State) : State := { s with romEn := false }

/-- `MemRead(a, 1)` and what is done with the byte. It is defined only below `ROM_SIZE` (R11). -/
def withRomByte (a : Nat) (s : State) (k : Byte → State → Host.Outcome State Fault Refusal) :
    Host.Outcome State Fault Refusal :=
  if a < s.cfg.romSize then k (s.rom.read a) (romRelease (romDrive a s)) else .fault (.romAddress a)

/-- A build with the index latch keeps the byte of an even nibble position (R42). -/
def latchIndex (b : Byte) (s : State) : State := { s with latch := if s.cfg.latch then b else s.latch }

/-! ## Errors (60_exceptions.md) -/

/-- `raise DataIntegrity(code, k)` (R203): `POS`, the working registers and everything else stay. -/
def raiseDataIntegrity (code : ErrCode) (k : BitVec 8) (s : State) : State :=
  { s with seqState := .error, errCode := code, errIdx := k }

/-- Leaving the error state: `ERRCODE` and `ERRIDX` are cleared; nothing was saved and nothing is restored (R208). -/
def clearError (s : State) : State := { s with errCode := .none, errIdx := 0 }

/-! ## Runs (40_host_interface.md R114 to R116, 42_sequencer.md) -/

/-- An accepted START (R114). The model's own records of the run begin anew; the pairs of earlier runs stay transferred. -/
def startRun (s : State) : State :=
  { clearError s with
    work := s.desc, pos := 0, outValid := false, seqState := .check
    romReads := [], delivered := [], deliveredBefore := s.deliveredBefore ++ s.delivered }

/-- ABORT (R116): the working registers and the pairs already transferred stay. -/
def abortRun (s : State) : State :=
  { clearError s with seqState := .idle, pos := 0, outValid := false, cmdErr := false }

/-- `POS <- POS + 1` (R161, R167). -/
def advance (s : State) : State := { s with pos := s.pos + 1 }

/-- CHECK_END (R163). -/
def endCheck (s : State) : State := { s with pos := 0, seqState := .emit }

/-- EMIT_END (R165). -/
def endEmit (s : State) : State := { s with seqState := .done }

/-- `emit(on, off, last)` (R166). -/
def emitPair (on off : Half) (last : Bool) (s : State) : State :=
  { s with outOn := on, outOff := off, outLast := last, outValid := true }

/-- Whether the sequencer can load a pair: EMIT, nothing presented, a position left (R164). -/
def canLoad (s : State) : Bool :=
  decide (s.seqState = .emit) && !s.outValid && decide (s.pos.toNat < s.work.len.toNat)

/-- Whether the sequencer has a position to validate (R161, R162). -/
def canCheck (s : State) : Bool := decide (s.seqState = .check) && decide (s.pos.toNat < s.work.len.toNat)

/-- Whether the current position is the last: `POS = W_LEN - 1` (R164). -/
def isLast (s : State) : Bool := decide (s.pos.toNat + 1 = s.work.len.toNat)

/-- What the consumer receives in a transfer now (R167). -/
def presented (s : State) : Transfer := { on := s.outOn, off := s.outOff, last := s.outLast, pos := s.pos }

/-- XFER (R167): the consumer takes the presented pair. -/
def acceptPair (s : State) : State :=
  { s with outValid := false, pos := s.pos + 1, delivered := s.delivered ++ [presented s] }

/-! ## Reset (70_reset_and_hazards.md R230) -/

/-- `rst = 1` at a rising edge: every state element takes its reset value; the parameters, the ROM, the schedule and what the
consumer has received are not elements of the block. -/
def applyReset (s : State) : State :=
  { State.resetOf s.cfg s.rom with
    script := s.script, deliveredBefore := s.deliveredBefore ++ s.delivered }

end Sys2Proof.Machine
end

