-- ==== Sys2Proof/Machine/Commands.lean ====
section
/-! DEFINITION. The commands (40_host_interface.md R113 to R117). -/

namespace Sys2Proof.Machine

/-- CMD NOP (R113): no state changes. -/
def execNop (s : State) : Host.Outcome State Fault Refusal := .next s

/-- CMD START: accepted when `BUSY = 0` (R114), else rejected with `CMDERR` (R115). -/
def execStart (s : State) : Host.Outcome State Fault Refusal :=
  if busy s then .next (commandError s) else .next (startRun s)

/-- CMD ABORT, in any state (R116). -/
def execAbort (s : State) : Host.Outcome State Fault Refusal := .next (abortRun s)

/-- A reserved opcode, in any state (R117); every reserved opcode does the same. -/
def execCmdReserved (_op : BitVec 8) (s : State) : Host.Outcome State Fault Refusal := .next (commandError s)

end Sys2Proof.Machine
end

