-- ==== Sys2Proof/Machine/Entries.lean ====
section
/-! DEFINITION. A dictionary entry read for the current position (41_unpacker.md R145, R146; 42_sequencer.md R164, R166): the pair
is presented on the output stream, with `out_last` exactly at the last position. An entry is taken only by EMIT_LOAD; in a state
where that step is not enabled it changes nothing (R168, notes/assumptions/9.md). -/

namespace Sys2Proof.Machine

/-- ENTRY of a `TW = 8` build: the 8-bit durations are zero-extended (R145, R152). -/
def execEntryTw8 (on off : BitVec 8) (s : State) : Host.Outcome State Fault Refusal :=
  if canLoad s then .next (emitPair (on.setWidth 16) (off.setWidth 16) (isLast s) s) else .next s

/-- ENTRY of a `TW = 16` build (R146). -/
def execEntryTw16 (on off : BitVec 16) (s : State) : Host.Outcome State Fault Refusal :=
  if canLoad s then .next (emitPair on off (isLast s) s) else .next s

end Sys2Proof.Machine
end

