-- ==== Sys2Proof/Machine/HostReads.lean ====
section
/-! DEFINITION. Host reads of mapped registers (40_host_interface.md R111, R112, R118 to R121). A read changes no register
(R101); what it returns stands on `hrdata`. -/

namespace Sys2Proof.Machine

/-- RD CMD returns 0 (R111). -/
def execRdCmd (s : State) : Host.Outcome State Fault Refusal := .next (hostRead 0 s)

/-- RD STATUS (R119). -/
def execRdStatus (s : State) : Host.Outcome State Fault Refusal := .next (hostRead (statusWord s) s)

/-- RD POS (R120). -/
def execRdPos (s : State) : Host.Outcome State Fault Refusal := .next (hostRead (s.pos.setWidth 32) s)

/-- RD MODE (R112). -/
def execRdMode (s : State) : Host.Outcome State Fault Refusal :=
  .next (hostRead ((bit (packBit s.desc.pack)).setWidth 32) s)

/-- RD DICT_BASE (R112): the descriptor register, not the working register. -/
def execRdDictBase (s : State) : Host.Outcome State Fault Refusal := .next (hostRead (s.desc.dictBase.setWidth 32) s)

/-- RD DICT_N (R112). -/
def execRdDictN (s : State) : Host.Outcome State Fault Refusal := .next (hostRead (s.desc.dictN.setWidth 32) s)

/-- RD SEQ_BASE (R112). -/
def execRdSeqBase (s : State) : Host.Outcome State Fault Refusal := .next (hostRead (s.desc.seqBase.setWidth 32) s)

/-- RD LEN (R112), the source's `length_of` (R118). -/
def execRdLen (s : State) : Host.Outcome State Fault Refusal := .next (hostRead (s.desc.len.setWidth 32) s)

/-- RD CARRIER (R112), the source's `carrier_of` (R118). -/
def execRdCarrier (s : State) : Host.Outcome State Fault Refusal := .next (hostRead (s.desc.carrier.setWidth 32) s)

/-- RD CFG (R121). -/
def execRdCfg (s : State) : Host.Outcome State Fault Refusal := .next (hostRead (cfgWord s.cfg) s)

end Sys2Proof.Machine
end

