-- ==== Sys2Proof/Machine/HostWrites.lean ====
section
/-! DEFINITION. Host writes of mapped registers (40_host_interface.md R102 to R109, 30_encoding.md R82). -/

namespace Sys2Proof.Machine

/-- WR CMD: the command that the data word encodes is carried out (R82, R83). `decodeCmd` answers no other instruction than
the four commands; any other would change nothing. -/
def execWrCmd (hwdata : Word) (s : State) : Host.Outcome State Fault Refusal :=
  match decodeCmd hwdata with
  | .nop => execNop s
  | .start => execStart s
  | .abort => execAbort s
  | .cmdReserved op => execCmdReserved op s
  | _ => .next s

/-- WR STATUS: read-only, no state changes (R109). -/
def execWrStatus (_hwdata : Word) (s : State) : Host.Outcome State Fault Refusal := .next s

/-- WR POS: read-only, no state changes (R109). -/
def execWrPos (_hwdata : Word) (s : State) : Host.Outcome State Fault Refusal := .next s

/-- WR MODE: `MODE.PACK <- hwdata[0]` (R103). -/
def execWrMode (hwdata : Word) (s : State) : Host.Outcome State Fault Refusal :=
  .next (writeDesc { s.desc with pack := packOfBit (hwdata.getLsbD 0) } s)

/-- WR DICT_BASE: `DICT_BASE <- hwdata[ROM_AW-1:0]` (R104). -/
def execWrDictBase (hwdata : Word) (s : State) : Host.Outcome State Fault Refusal :=
  .next (writeDesc { s.desc with dictBase := baseOfWord s.cfg.romAw hwdata } s)

/-- WR DICT_N: `DICT_N <- hwdata[8:0]` (R105). -/
def execWrDictN (hwdata : Word) (s : State) : Host.Outcome State Fault Refusal :=
  .next (writeDesc { s.desc with dictN := hwdata.extractLsb' 0 9 } s)

/-- WR SEQ_BASE: `SEQ_BASE <- hwdata[ROM_AW-1:0]` (R106). -/
def execWrSeqBase (hwdata : Word) (s : State) : Host.Outcome State Fault Refusal :=
  .next (writeDesc { s.desc with seqBase := baseOfWord s.cfg.romAw hwdata } s)

/-- WR LEN: `LEN <- hwdata[15:0]` (R107). -/
def execWrLen (hwdata : Word) (s : State) : Host.Outcome State Fault Refusal :=
  .next (writeDesc { s.desc with len := hwdata.extractLsb' 0 16 } s)

/-- WR CARRIER: `CARRIER <- hwdata[15:0]` (R108). -/
def execWrCarrier (hwdata : Word) (s : State) : Host.Outcome State Fault Refusal :=
  .next (writeDesc { s.desc with carrier := hwdata.extractLsb' 0 16 } s)

/-- WR CFG: read-only, no state changes (R109). -/
def execWrCfg (_hwdata : Word) (s : State) : Host.Outcome State Fault Refusal := .next s

end Sys2Proof.Machine
end

