-- ==== Sys2Proof/Machine/Indices.lean ====
section
/-! DEFINITION. An index byte read for the current position (41_unpacker.md R141, R142). In CHECK the index is tested and the
position validated or the error raised (R147, R161, R162); in EMIT its entry is read and presented (R148, R164). In a state where
the sequencer has no position to process it changes nothing (R168, notes/assumptions/9.md). -/

namespace Sys2Proof.Machine

/-- EMIT_LOAD after the index: the `ESZ` bytes of entry `k` are read in increasing address and the pair is presented (R145,
R146, R164). -/
def loadEntry (k : BitVec 8) (s : State) : Host.Outcome State Fault Refusal :=
  match s.cfg.tw with
  | .tw8 =>
    withRomByte (entryAddr s.cfg s.work k) s fun b0 s0 =>
    withRomByte (entryAddr s.cfg s.work k + 1) s0 fun b1 s1 => execEntryTw8 b0 b1 s1
  | .tw16 =>
    withRomByte (entryAddr s.cfg s.work k) s fun b0 s0 =>
    withRomByte (entryAddr s.cfg s.work k + 1) s0 fun b1 s1 =>
    withRomByte (entryAddr s.cfg s.work k + 2) s1 fun b2 s2 =>
    withRomByte (entryAddr s.cfg s.work k + 3) s2 fun b3 s3 => execEntryTw16 (le16 b0 b1) (le16 b2 b3) s3

/-- CHECK_NEXT or CHECK_FAIL after the index (R161, R162). -/
def checkStep (k : BitVec 8) (s : State) : State :=
  match checkIndex s.cfg s.work k with
  | .ok => advance s
  | .err code k' => raiseDataIntegrity code k' s

/-- What the sequencer does with the index `k` of the current position. -/
def applyIndex (k : BitVec 8) (s : State) : Host.Outcome State Fault Refusal :=
  if canCheck s then .next (checkStep k s)
  else if canLoad s then loadEntry k s
  else .next s

/-- The hi nibble of a byte, at an even position (R141); a build with the latch keeps the byte (R42). -/
def execIdxNibbleHi (hi lo : BitVec 4) (s : State) : Host.Outcome State Fault Refusal :=
  if canCheck s || canLoad s then applyIndex (hi.setWidth 8) (latchIndex (hi ++ lo) s) else .next s

/-- The lo nibble of a byte, at an odd position (R141); the result does not depend on the hi nibble. -/
def execIdxNibbleLo (_hi lo : BitVec 4) (s : State) : Host.Outcome State Fault Refusal :=
  applyIndex (lo.setWidth 8) s

/-- A byte taken whole (R142). -/
def execIdxByte (index : BitVec 8) (s : State) : Host.Outcome State Fault Refusal := applyIndex index s

end Sys2Proof.Machine
end

