-- ==== Sys2Proof/Machine/Unmapped.lean ====
section
/-! DEFINITION. Host accesses of the unmapped offsets 0x28 to 0x3C (40_host_interface.md R110, 10_state.md R38): a write changes
no state, a read returns 0. -/

namespace Sys2Proof.Machine

/-- A write to offset 0x28 (R110). -/
def execWrUnmapped28 (_hwdata : Word) (s : State) : Host.Outcome State Fault Refusal := .next s

/-- A read of offset 0x28 (R110). -/
def execRdUnmapped28 (s : State) : Host.Outcome State Fault Refusal := .next (hostRead 0 s)

/-- A write to offset 0x2C (R110). -/
def execWrUnmapped2C (_hwdata : Word) (s : State) : Host.Outcome State Fault Refusal := .next s

/-- A read of offset 0x2C (R110). -/
def execRdUnmapped2C (s : State) : Host.Outcome State Fault Refusal := .next (hostRead 0 s)

/-- A write to offset 0x30 (R110). -/
def execWrUnmapped30 (_hwdata : Word) (s : State) : Host.Outcome State Fault Refusal := .next s

/-- A read of offset 0x30 (R110). -/
def execRdUnmapped30 (s : State) : Host.Outcome State Fault Refusal := .next (hostRead 0 s)

/-- A write to offset 0x34 (R110). -/
def execWrUnmapped34 (_hwdata : Word) (s : State) : Host.Outcome State Fault Refusal := .next s

/-- A read of offset 0x34 (R110). -/
def execRdUnmapped34 (s : State) : Host.Outcome State Fault Refusal := .next (hostRead 0 s)

/-- A write to offset 0x38 (R110). -/
def execWrUnmapped38 (_hwdata : Word) (s : State) : Host.Outcome State Fault Refusal := .next s

/-- A read of offset 0x38 (R110). -/
def execRdUnmapped38 (s : State) : Host.Outcome State Fault Refusal := .next (hostRead 0 s)

/-- A write to offset 0x3C (R110). -/
def execWrUnmapped3C (_hwdata : Word) (s : State) : Host.Outcome State Fault Refusal := .next s

/-- A read of offset 0x3C (R110). -/
def execRdUnmapped3C (s : State) : Host.Outcome State Fault Refusal := .next (hostRead 0 s)

end Sys2Proof.Machine
end

