-- ==== Sys2Proof/Machine/Dispatch.lean ====
section
/-! DEFINITION. One arm per instruction: its meaning. -/

namespace Sys2Proof.Machine

def exec (i : Instr) (s : State) : Host.Outcome State Fault Refusal :=
  match i with
  | .nop => Sys2Proof.Machine.execNop s
  | .start => Sys2Proof.Machine.execStart s
  | .abort => Sys2Proof.Machine.execAbort s
  | .cmdReserved op => Sys2Proof.Machine.execCmdReserved op s
  | .wrCmd hwdata => Sys2Proof.Machine.execWrCmd hwdata s
  | .wrStatus hwdata => Sys2Proof.Machine.execWrStatus hwdata s
  | .wrPos hwdata => Sys2Proof.Machine.execWrPos hwdata s
  | .wrMode hwdata => Sys2Proof.Machine.execWrMode hwdata s
  | .wrDictBase hwdata => Sys2Proof.Machine.execWrDictBase hwdata s
  | .wrDictN hwdata => Sys2Proof.Machine.execWrDictN hwdata s
  | .wrSeqBase hwdata => Sys2Proof.Machine.execWrSeqBase hwdata s
  | .wrLen hwdata => Sys2Proof.Machine.execWrLen hwdata s
  | .wrCarrier hwdata => Sys2Proof.Machine.execWrCarrier hwdata s
  | .wrCfg hwdata => Sys2Proof.Machine.execWrCfg hwdata s
  | .rdCmd => Sys2Proof.Machine.execRdCmd s
  | .rdStatus => Sys2Proof.Machine.execRdStatus s
  | .rdPos => Sys2Proof.Machine.execRdPos s
  | .rdMode => Sys2Proof.Machine.execRdMode s
  | .rdDictBase => Sys2Proof.Machine.execRdDictBase s
  | .rdDictN => Sys2Proof.Machine.execRdDictN s
  | .rdSeqBase => Sys2Proof.Machine.execRdSeqBase s
  | .rdLen => Sys2Proof.Machine.execRdLen s
  | .rdCarrier => Sys2Proof.Machine.execRdCarrier s
  | .rdCfg => Sys2Proof.Machine.execRdCfg s
  | .wrUnmapped28 hwdata => Sys2Proof.Machine.execWrUnmapped28 hwdata s
  | .rdUnmapped28 => Sys2Proof.Machine.execRdUnmapped28 s
  | .wrUnmapped2C hwdata => Sys2Proof.Machine.execWrUnmapped2C hwdata s
  | .rdUnmapped2C => Sys2Proof.Machine.execRdUnmapped2C s
  | .wrUnmapped30 hwdata => Sys2Proof.Machine.execWrUnmapped30 hwdata s
  | .rdUnmapped30 => Sys2Proof.Machine.execRdUnmapped30 s
  | .wrUnmapped34 hwdata => Sys2Proof.Machine.execWrUnmapped34 hwdata s
  | .rdUnmapped34 => Sys2Proof.Machine.execRdUnmapped34 s
  | .wrUnmapped38 hwdata => Sys2Proof.Machine.execWrUnmapped38 hwdata s
  | .rdUnmapped38 => Sys2Proof.Machine.execRdUnmapped38 s
  | .wrUnmapped3C hwdata => Sys2Proof.Machine.execWrUnmapped3C hwdata s
  | .rdUnmapped3C => Sys2Proof.Machine.execRdUnmapped3C s
  | .idxNibbleHi hi lo => Sys2Proof.Machine.execIdxNibbleHi hi lo s
  | .idxNibbleLo hi lo => Sys2Proof.Machine.execIdxNibbleLo hi lo s
  | .idxByte index => Sys2Proof.Machine.execIdxByte index s
  | .entryTw8 on off => Sys2Proof.Machine.execEntryTw8 on off s
  | .entryTw16 on off => Sys2Proof.Machine.execEntryTw16 on off s

end Sys2Proof.Machine
end

