-- ==== Sys2Proof/Machine/Script.lean ====
section
/-! DEFINITION. Host scripts (30_encoding.md R93, R94) and clock edges (R100, R207, R230): what the entries of the schedule stand
for. -/

namespace Sys2Proof.Machine

/-- The register names of R24. -/
inductive RegName where
  | cmd | status | pos | mode | dictBase | dictN | seqBase | len | carrier | cfg
  deriving DecidableEq, Repr

/-- The byte offset of a register (R24). -/
def regOffset : RegName → BitVec 6
  | .cmd => 0x00
  | .status => 0x04
  | .pos => 0x08
  | .mode => 0x0C
  | .dictBase => 0x10
  | .dictN => 0x14
  | .seqBase => 0x18
  | .len => 0x1C
  | .carrier => 0x20
  | .cfg => 0x24

/-- The HOSTACC7 bits of an access: `we`, then the offset (R81). -/
def hostBits (we : Bool) (haddr : BitVec 6) : BitVec 7 := bit we ++ haddr

/-- `WR <reg>, <value>` (R93). -/
def lineWr (r : RegName) (v : Word) : Line := .act (.host true (regOffset r) v)

/-- `RD <reg>` (R93). -/
def lineRd (r : RegName) : Line := .act (.host false (regOffset r) 0)

/-- `CMD NOP` (R93, R83). -/
def lineNop : Line := lineWr .cmd 0x00000000#32

/-- `CMD START` (R93, R83). -/
def lineStart : Line := lineWr .cmd 0x00000001#32

/-- `CMD ABORT` (R93, R83). -/
def lineAbort : Line := lineWr .cmd 0x00000002#32

/-- `STEP` (R93). -/
def lineStep : Line := .act .seq

/-- `XFER` (R93). -/
def lineXfer : Line := .act .xfer

/-- The events of one clock edge, in the order of R207: reset alone when `rst = 1` (R230); else the transfer (a pair is
presented and the consumer is ready) or the sequencer's step, then the host access. -/
def edgeLines (p : EdgeInputs) (s : State) : List Line :=
  if p.rst then [.act .rst]
  else
    (if s.outValid then (if p.outReady then [.act .xfer] else [])
     else (if p.tick then [.act .seq] else [])) ++
    (if p.hsel then [.act (.host p.hwe p.haddr p.hwdata)] else [])

/-- What the other agents do in the next gap between two reads of a `POLL`: what the schedule says. Where it says no more, the
sequencer has a turn, as with an empty schedule (R174), and the consumer, of which no fairness is assumed, has none: a presented
pair stays and the poll does not end (R240; DESIGN CHOICE, notes/assumptions/14.md). -/
def betweenReads : List (List Event) → List Line
  | [] => [lineStep]
  | es :: _ => es.map .act

/-- What a macro stands for in the state it is met in. `LOAD` is six writes in the order of R94. `RUN` is `CMD START`, then a
sequencer step and a transfer in turn (one that is not enabled changes nothing) until `STATE` is DONE or ERROR (DESIGN CHOICE,
notes/assumptions/14.md). `POLL` is `RD STATUS` until the status read has `BUSY = 0` and nothing else: what stands between two
reads is the other agents' (`betweenReads`). -/
def expandMacro (m : Macro) (s : State) : List Line :=
  match m with
  | .edge p => edgeLines p s
  | .load dict n seq len carrier pack =>
    [lineWr .dictBase dict, lineWr .dictN n, lineWr .seqBase seq, lineWr .len len, lineWr .carrier carrier,
     lineWr .mode pack]
  | .run => [lineStart, .expand .runLoop]
  | .runLoop =>
    if s.seqState = .done ∨ s.seqState = .error then [] else [lineStep, lineXfer, .expand .runLoop]
  | .poll others => [lineRd .status, .expand (.pollLoop others)]
  | .pollLoop others => if s.hrdata.getLsbD 3 then betweenReads others ++ [.expand (.poll others.tail)] else []

end Sys2Proof.Machine
end

