-- ==== Sys2Proof/Machine/Sequencer.lean ====
section
/-! DEFINITION. The steps without an encoding: the sequencer's step with its reading of the index byte (42_sequencer.md R160 to
R165, R168) and the consumer's transfer (R167). A step that is not enabled changes nothing (R168, R240). -/

namespace Sys2Proof.Machine

/-- Whether the index latch stands for the ROM read: an odd position under nibble packing in a build that has it (R42). -/
def latchHolds (s : State) : Bool :=
  s.cfg.latch && decide (s.work.pack = .nibble) && decide (s.pos.toNat % 2 = 1)

/-- The index byte of the current position is read and decoded in the packing of the run, and `run` carries the instruction
out (R140 to R142). -/
def fetchIndex (run : Instr → State → Host.Outcome State Fault Refusal) (s : State) : Host.Outcome State Fault Refusal :=
  if latchHolds s then run (decodeIndex s.work.pack s.pos.toNat s.latch) s
  else withRomByte (seqAddr s.work s.pos.toNat) s fun b s' => run (decodeIndex s'.work.pack s'.pos.toNat b) s'

/-- The sequencer's step. In CHECK: CHECK_END (R163), CHECK_FAIL where the index byte is outside the ROM (R147, R162), else the
index is fetched. In EMIT with nothing presented: EMIT_END (R165) or the index is fetched (R164). Otherwise there is no step. -/
def sequencerStep (run : Instr → State → Host.Outcome State Fault Refusal) (s : State) :
    Host.Outcome State Fault Refusal :=
  match s.seqState with
  | .check =>
    if s.pos = s.work.len then .next (endCheck s)
    else if canCheck s then
      (if seqAddr s.work s.pos.toNat ≥ s.cfg.romSize then .next (raiseDataIntegrity .romRange 0 s) else fetchIndex run s)
    else .next s
  | .emit =>
    if s.outValid then .next s
    else if s.pos = s.work.len then .next (endEmit s)
    else if canLoad s then fetchIndex run s
    else .next s
  | .idle | .done | .error => .next s

/-- The consumer is ready: a transfer when a pair is presented in EMIT (R167). -/
def consumerStep (s : State) : State :=
  if s.seqState = .emit ∧ s.outValid = true then acceptPair s else s

end Sys2Proof.Machine
end

