-- ==== Sys2Proof/Machine/Step.lean ====
section
/-! DEFINITION. One step of the machine: the head of the schedule is taken (00_scope.md R12). A host access is decoded and carried
out; the sequencer decodes and carries out the index of its position; the consumer takes a presented pair; a reset acts on all of
it. -/

namespace Sys2Proof.Machine

/-- One event. -/
def act (e : Event) (s : State) : Host.Outcome State Fault Refusal :=
  match e with
  | .host we haddr hwdata => exec (decodeHost (hostBits we haddr) hwdata) s
  | .seq => sequencerStep exec s
  | .xfer => .next (consumerStep s)
  | .rst => .next (applyReset s)

/-- One step: the event at the head of the schedule, or a macro replaced by what it stands for. With an empty schedule the
sequencer steps: the outside world does nothing more and the sequencer is fair (R174, notes/assumptions/1.md). -/
def step (s : State) : Host.Outcome State Fault Refusal :=
  match s.script with
  | [] => act .seq s
  | .act e :: rest => act e { s with script := rest }
  | .expand m :: rest => .next { s with script := expandMacro m s ++ rest }

/-- The state in which the very next step runs the instruction of a table word (`decodeTableWord`): a host access or a command
is put at the head of the schedule; a dictionary entry is placed in ROM as entry 0 of a one-position nibble record whose EMIT
pass is about to load it (notes/assumptions/8.md). -/
def State.withFetchWord (s : State) (nbits w : Nat) : State :=
  match tableFormat nbits w with
  | some .hostacc7 =>
    let b := BitVec.ofNat 8 w
    { s with script := .act (.host (b.getLsbD 6) (b.extractLsb' 0 6) 0) :: s.script }
  | some .cmd32 => { s with script := .act (.host true 0 (BitVec.ofNat 32 w)) :: s.script }
  | some .ent16 =>
    { s with
      cfg := { s.cfg with tw := .tw8, romSize := max s.cfg.romSize 3 }
      rom := Memory.writeBytes s.rom 0 [BitVec.ofNat 8 w, BitVec.ofNat 8 (w / 256), 0]
      work := { s.work with dictBase := 0, dictN := 1, seqBase := 2, len := 1, pack := .nibble }
      seqState := .emit, outValid := false, pos := 0
      script := .act .seq :: s.script }
  | _ => s

end Sys2Proof.Machine
end

