-- ==== Sys2Proof/Machine/Ports.lean ====
section
/-! DEFINITION. The output ports of the block as views of its state (10_state.md R21, R40, R41; 20_memory.md R61). -/

namespace Sys2Proof.Machine

/-- The outputs of R21. `rom_addr` is driven only during a read; the addresses driven stand in `romReads`. -/
structure OutPorts where
  hrdata : Word
  romEn : Bool
  outValid : Bool
  outOn : Half
  outOff : Half
  outLast : Bool
  outPos : Half
  carrierO : Half
  deriving DecidableEq, Repr

/-- The output stream from the output register and `POS` (R40), `carrier_o` from `W_CARRIER` at all times (R41). -/
def outPorts (s : State) : OutPorts :=
  { hrdata := s.hrdata, romEn := s.romEn
    outValid := s.outValid, outOn := s.outOn, outOff := s.outOff, outLast := s.outLast
    outPos := s.pos, carrierO := s.work.carrier }

end Sys2Proof.Machine
end

