-- ==== Sys2Proof/Safety.lean ====
section
/-! DEFINITION. The terms in which claims about IRDX are stated: what stays the same over a step (frames), what the invariants of
10_state.md R44, 42_sequencer.md R160 to R171 and 20_memory.md R74 say of a state, and which states a run reaches. -/

namespace Sys2Proof.Safety

open Sys2Proof.Machine

/-! ## Frames -/

/-- The parameters and every byte of the ROM are as before. -/
def SameRom (s t : State) : Prop := t.cfg = s.cfg ∧ ∀ a, t.rom.read a = s.rom.read a

/-- `STATE`, `ERRCODE`, `ERRIDX`, `CMDERR` are as before. -/
def SameStatus (s t : State) : Prop :=
  t.seqState = s.seqState ∧ t.errCode = s.errCode ∧ t.errIdx = s.errIdx ∧ t.cmdErr = s.cmdErr

/-- The output register is as before. -/
def SameOutput (s t : State) : Prop :=
  t.outValid = s.outValid ∧ t.outOn = s.outOn ∧ t.outOff = s.outOff ∧ t.outLast = s.outLast

/-- What stands outside the block is as before: the host's last read and the pairs transferred. -/
def SameOutside (s t : State) : Prop :=
  t.hrdata = s.hrdata ∧ t.delivered = s.delivered ∧ t.deliveredBefore = s.deliveredBefore

/-- The ROM port and the index latch are as before. -/
def SameRomPort (s t : State) : Prop := t.romEn = s.romEn ∧ t.romReads = s.romReads ∧ t.latch = s.latch

/-! ## Instructions and schedule entries by what they are -/

/-- The reads of the host (R111, R112, R119 to R121 and the reads of R110). -/
def isHostRead : Instr → Bool
  | .rdCmd | .rdStatus | .rdPos | .rdMode | .rdDictBase | .rdDictN | .rdSeqBase | .rdLen | .rdCarrier | .rdCfg => true
  | .rdUnmapped28 | .rdUnmapped2C | .rdUnmapped30 | .rdUnmapped34 | .rdUnmapped38 | .rdUnmapped3C => true
  | _ => false

/-- The writes of the six descriptor registers (R103 to R108). -/
def isDescriptorWrite : Instr → Bool
  | .wrMode _ | .wrDictBase _ | .wrDictN _ | .wrSeqBase _ | .wrLen _ | .wrCarrier _ => true
  | _ => false

/-- The index that an index byte stands for in its format (R141, R142). -/
def indexOperand : Instr → Option (BitVec 8)
  | .idxNibbleHi hi _ => some (hi.setWidth 8)
  | .idxNibbleLo _ lo => some (lo.setWidth 8)
  | .idxByte k => some k
  | _ => none

/-- The index latch after an index byte has been taken: a build that has it keeps the byte of an even nibble position (R42). -/
def latchAfter (i : Instr) (s : State) : Byte :=
  match i with
  | .idxNibbleHi hi lo => if s.cfg.latch then hi ++ lo else s.latch
  | _ => s.latch

/-- The head of the schedule is the event `e`. -/
def Next (s : State) (e : Event) : Prop := s.script.head? = some (.act e)

/-- The head of the schedule is a write to CMD whose opcode is `op`, whatever the ignored bits hold (R81, R82). -/
def NextCommand (s : State) (op : Nat) : Prop :=
  ∃ haddr hwdata, Next s (.host true haddr hwdata) ∧ haddr.toNat / 4 = 0 ∧ hwdata.toNat % 256 = op

/-- The head of the schedule is an access of the host. -/
def NextHost (s : State) : Prop := ∃ we haddr hwdata, Next s (.host we haddr hwdata)

/-! ## What a run gives -/

/-- What the consumer is to receive at position `i` of the record `r` (R170). -/
def expectedTransfer (c : Config) (rom : Memory) (r : Record) (i : Nat) : Transfer :=
  { on := (pair c rom r i).1, off := (pair c rom r i).2
    last := decide (i + 1 = r.len.toNat), pos := BitVec.ofNat 16 i }

/-- What the consumer is to receive over a whole run of the record `r`: exactly `LEN` pairs in order (R170). -/
def expectedRun (c : Config) (rom : Memory) (r : Record) : List Transfer :=
  (List.range r.len.toNat).map (expectedTransfer c rom r)

/-- Every position of the record `r` can be resolved. -/
def AllPass (c : Config) (rom : Memory) (r : Record) : Prop := ∀ i < r.len.toNat, checkPos c rom r i = .ok

/-! ## Invariants -/

/-- The invariants of R44. -/
structure StatusInv (s : State) : Prop where
  posLe : s.pos.toNat ≤ s.work.len.toNat
  valid : s.outValid = true → s.seqState = .emit ∧ s.pos.toNat < s.work.len.toNat
  errCode : s.errCode ≠ .none ↔ s.seqState = .error
  errIdx : s.errIdx ≠ 0 → s.seqState = .error
  done : s.seqState = .done → s.pos = s.work.len
  idle : s.seqState = .idle → s.pos = 0 ∧ s.outValid = false

/-- What the passes of a run have established (R160, R164, R170, R171, R42). -/
structure RunInv (s : State) : Prop where
  status : StatusInv s
  /-- In CHECK the positions below `POS` have passed (R30). -/
  checked : s.seqState = .check → ∀ i < s.pos.toNat, checkPos s.cfg s.rom s.work i = .ok
  /-- In EMIT and DONE every position has passed (R160). -/
  passed : s.seqState = .emit ∨ s.seqState = .done → AllPass s.cfg s.rom s.work
  /-- In ERROR `POS` is the first position that failed, and the recorded error is its error (R203). -/
  failed : s.seqState = .error →
    s.pos.toNat < s.work.len.toNat ∧ (∀ i < s.pos.toNat, checkPos s.cfg s.rom s.work i = .ok) ∧
      checkPos s.cfg s.rom s.work s.pos.toNat = .err s.errCode s.errIdx
  /-- Before the EMIT pass and in a failed run the consumer has received nothing (R171). -/
  quiet : s.seqState = .check ∨ s.seqState = .error → s.delivered = []
  /-- In EMIT and DONE it has received the pairs of the positions below `POS` (R30, R170). -/
  sent : s.seqState = .emit ∨ s.seqState = .done →
    s.delivered = (expectedRun s.cfg s.rom s.work).take s.pos.toNat
  /-- A presented pair is the pair of `POS` (R164). -/
  shown : s.outValid = true → presented s = expectedTransfer s.cfg s.rom s.work s.pos.toNat
  /-- After an ABORT the pairs transferred are a prefix of the record's sequence (R236). -/
  aborted : s.seqState = .idle → s.delivered <+: expectedRun s.cfg s.rom s.work
  /-- Where the index latch is used, or is about to be, it holds the byte of the position (R42). -/
  latched : s.cfg.latch = true → s.work.pack = .nibble → (s.seqState = .check ∨ s.seqState = .emit) →
    (s.pos.toNat % 2 = 1 ∨ s.outValid = true) → s.latch = s.rom.read (seqAddr s.work s.pos.toNat)

/-- The ROM bytes a run reads (R61, R67, R74). -/
structure RomPortInv (s : State) : Prop where
  /-- No read is in progress between steps. -/
  idle : s.romEn = false
  /-- No address at or above `ROM_SIZE` is driven. -/
  inside : ∀ a ∈ s.romReads, a < s.cfg.romSize
  /-- Only index bytes of the record and entry bytes of its positions are read. -/
  needed : ∀ a ∈ s.romReads,
    (∃ j < seqBytes s.work.pack s.work.len.toNat, a = s.work.seqBase.toNat + j) ∨
    (∃ i < s.work.len.toNat, (idx s.rom s.work i).toNat < s.work.dictN.toNat ∧
      ∃ t < esz s.cfg, a = entryAddr s.cfg s.work (idx s.rom s.work i) + t)
  /-- Before the EMIT pass, and in a failed run, only the index bytes of the positions up to `POS` are read. -/
  checkOnly : s.seqState = .check ∨ s.seqState = .error →
    ∀ a ∈ s.romReads, ∃ i ≤ s.pos.toNat, a = seqAddr s.work i

/-- The parameters are in their ranges, the ROM image is canonical and the base registers hold `ROM_AW` bits (R7, R8, R24). -/
structure WidthInv (s : State) : Prop where
  cfg : s.cfg.wf
  rom : s.rom.wf = true
  descDict : s.desc.dictBase.toNat < 2 ^ s.cfg.romAw
  descSeq : s.desc.seqBase.toNat < 2 ^ s.cfg.romAw
  workDict : s.work.dictBase.toNat < 2 ^ s.cfg.romAw
  workSeq : s.work.seqBase.toNat < 2 ^ s.cfg.romAw

/-- A state that some run from reset reaches, for some parameters, ROM and schedule. -/
def Reachable (s : State) : Prop :=
  ∃ (c : Config) (rom : Memory) (script : List Line) (n : Nat),
    core.run n { State.resetOf c rom with script := script } = .next s

/-- The run has ended (R26). -/
def Finished (s : State) : Prop := s.seqState = .done ∨ s.seqState = .error

/-- The state as a build without the index latch would show it, without the record of ROM reads (R42). -/
def withoutLatch (s : State) : State :=
  { s with cfg := { s.cfg with latch := false }, latch := 0, romReads := [] }

/-- The same state in a build with another ROM latency and another base address (R9, R214). -/
def withTiming (romLat irdxBase : Nat) (s : State) : State :=
  { s with cfg := { s.cfg with romLat := romLat, irdxBase := irdxBase } }

/-- The steps of a successful run of length `L` after its START, the consumer taking each pair at once: `L + 1` CHECK steps,
`L` loads and transfers, one EMIT_END (R173). -/
def successSchedule (L : Nat) : List Line :=
  List.replicate (L + 1) (.act .seq) ++ (List.replicate L [Line.act .seq, Line.act .xfer]).flatten ++ [.act .seq]

end Sys2Proof.Safety
end

