-- ==== Sys2Proof/Certificates/Slice0/Obligations.lean ====
section
/-! DEFINITION. The statements for the provers: each formalises the rules of spec/ that its docstring names. -/

open Sys2Proof Sys2Proof.Machine Sys2Proof.Safety

/-! ## Encodings (30_encoding.md) -/

/-- Decoding the bytes of a well-formed instruction in its format gives it back, with whatever follows left over: every operand
at every value (R81 to R87; the byte form of a host access is the model's, notes/assumptions/7.md). -/
def Obligations.EncodedInstructionDecodesBack : Prop :=
  ∀ (i : Instr) (rest : List Byte), wellFormed i = true → decode (formatOf i) (encode i ++ rest) = .ok (i, rest)

/-- Whatever the decoder answers is a well-formed instruction of the format asked for, and its canonical encoding decodes to
it again. -/
def Obligations.DecodedInstructionIsWellFormed : Prop :=
  ∀ (f : Format) (bytes rest : List Byte) (i : Instr), decode f bytes = .ok (i, rest) →
    wellFormed i = true ∧ formatOf i = f ∧ decode f (encode i ++ rest) = .ok (i, rest)

/-- A few words written out from the spec's encodings (R81, R83 to R87; 95_test_vectors.md; the byte
form of a host access is the model's, notes/assumptions/7.md). -/
def Obligations.SpecWordsDecodeToTheirInstructions : Prop :=
  decode .hostacc7 [0x50, 0x00, 0x01, 0x00, 0x00] = .ok (.wrDictBase 0x00000100, []) ∧
  decode .hostacc7 [0x40, 0x01, 0x00, 0x00, 0x00] = .ok (.wrCmd 0x00000001, []) ∧
  decode .hostacc7 [0x24] = .ok (.rdCfg, []) ∧
  decode .cmd32 [0x02, 0x00, 0x00, 0x00] = .ok (.abort, []) ∧
  decode (.idxn8 false) [0x2A] = .ok (.idxNibbleHi 2 10, []) ∧
  decode .ent32 [0x10, 0x27, 0x88, 0x13] = .ok (.entryTw16 10000 5000, [])

/-- A host access is selected by `we` and `offset[5:2]` alone: `offset[1:0]` and, on a read, `hwdata` are ignored (R81, R64). -/
def Obligations.HostAccessIsSelectedByItsWord : Prop :=
  ∀ (we : Bool) (a a' : BitVec 6) (d d' : Word), a.toNat / 4 = a'.toNat / 4 → (we = true → d = d') →
    decodeHost (hostBits we a) d = decodeHost (hostBits we a') d'

/-! ## One step -/

/-- A host access at the head of the schedule: the step is `exec` of the instruction the decoder reads from it. -/
def Obligations.StepRunsTheDecodedHostAccess : Prop :=
  ∀ (s : State) (rest : List Line) (we : Bool) (haddr : BitVec 6) (d : Word),
    s.script = .act (.host we haddr d) :: rest →
      step s = exec (decodeHost (hostBits we haddr) d) { s with script := rest }

/-- The sequencer's turn at a position in CHECK or EMIT: the step is `exec` of the index byte at `seqAddr(POS)`, decoded in
the packing of the run, in the state after the ROM read; in a build with the index latch an odd nibble position takes the
latched byte and reads nothing. With an empty schedule the sequencer has the turn (notes/assumptions/1.md). -/
def Obligations.StepRunsTheDecodedIndexByte : Prop :=
  ∀ s : State,
    (s.seqState = .check ∨ s.seqState = .emit ∧ s.outValid = false) → s.pos.toNat < s.work.len.toNat →
    seqAddr s.work s.pos.toNat < s.cfg.romSize → (s.script = [] ∨ Next s .seq) →
      step s =
        if s.cfg.latch = true ∧ s.work.pack = .nibble ∧ s.pos.toNat % 2 = 1 then
          exec (decodeIndex s.work.pack s.pos.toNat s.latch) { s with script := s.script.tail }
        else
          exec (decodeIndex s.work.pack s.pos.toNat (s.rom.read (seqAddr s.work s.pos.toNat)))
            { s with
              script := s.script.tail, romEn := false
              romReads := s.romReads ++ [seqAddr s.work s.pos.toNat] }

/-! ## Reset (70_reset_and_hazards.md) -/

/-- The reset values of R45, in every build and with every ROM: IDLE with `STATUS = 0`, `POS = 0`, all descriptor and working
registers 0, nibble packing, an empty output register, `rom_en = 0`; `CFG` is the parameters'. `State.reset` is one such state
(its build is the model's choice, notes/assumptions/2.md and 3.md). -/
def Obligations.ResetStateHoldsTheResetValues : Prop :=
  (∀ (c : Config) (rom : Memory), ∃ s, s = State.resetOf c rom ∧
    s.seqState = .idle ∧ s.errCode = .none ∧ s.errIdx = 0 ∧ s.cmdErr = false ∧ s.pos = 0 ∧
    s.desc = { dictBase := 0, dictN := 0, seqBase := 0, len := 0, carrier := 0, pack := .nibble } ∧
    s.work = { dictBase := 0, dictN := 0, seqBase := 0, len := 0, carrier := 0, pack := .nibble } ∧
    s.outValid = false ∧ s.outOn = 0 ∧ s.outOff = 0 ∧ s.outLast = false ∧ s.romEn = false ∧
    statusWord s = 0 ∧ (outPorts s).carrierO = 0 ∧ s.cfg = c ∧ s.rom = rom) ∧
  State.reset = State.resetOf Config.default []

/-- A clock edge with `rst = 1`, whatever else its inputs hold: its two entries of the schedule (the edge and the reset it
stands for) leave every state element of R45 at its reset value, reads return 0, no host access, sequencer step or transfer
happens, and the parameters and the ROM stay; with nothing more scheduled the block then waits in IDLE (R230). The edge and
its two schedule entries are the model's form (notes/assumptions/13.md), and so are the records of pairs and reads and what a
reset does to them (notes/assumptions/5.md and 17.md). -/
def Obligations.ResetEdgeDominatesEveryOtherInput : Prop :=
  ∀ (s : State) (p : EdgeInputs) (rest : List Line), p.rst = true → s.script = .expand (.edge p) :: rest →
    ∃ t, core.run 2 s = .next t ∧
      t.seqState = .idle ∧ t.errCode = .none ∧ t.errIdx = 0 ∧ t.cmdErr = false ∧ t.pos = 0 ∧
      t.desc = Record.zero ∧ t.work = Record.zero ∧
      t.outValid = false ∧ t.outOn = 0 ∧ t.outOff = 0 ∧ t.outLast = false ∧ t.romEn = false ∧ t.hrdata = 0 ∧
      t.deliveredBefore = s.deliveredBefore ++ s.delivered ∧ t.delivered = [] ∧ t.romReads = [] ∧
      t.script = rest ∧ SameRom s t ∧ (rest = [] → step t = .next t)

/-- In one clock edge without reset the transfer or the sequencer's step comes first, then the host access. So a START in the
same cycle as EMIT_END sees the state after it and is accepted, one in the same cycle as CHECK_FAIL too, and an ABORT in the same
cycle as a transfer happens after the transfer, so the pair has been received (R207; the macro is the model's form of an edge,
notes/assumptions/13.md). -/
def Obligations.EdgeTakesTheHostAccessLast : Prop :=
  (∀ (s : State) (p : EdgeInputs) (rest : List Line), p.rst = false → s.script = .expand (.edge p) :: rest →
    ∃ first : List Line,
      (first = [] ∨ first = [.act .xfer] ∧ s.outValid = true ∧ p.outReady = true ∨
        first = [.act .seq] ∧ s.outValid = false ∧ p.tick = true) ∧
      (s.outValid = true → p.outReady = true → first = [.act .xfer]) ∧
      (s.outValid = false → p.tick = true → first = [.act .seq]) ∧
      step s = .next { s with
        script := first ++ (if p.hsel then [.act (.host p.hwe p.haddr p.hwdata)] else []) ++ rest }) ∧
  (∀ (s : State) (p : EdgeInputs) (rest : List Line),
    s.script = .expand (.edge p) :: rest → p.rst = false → p.hsel = true → p.hwe = true → p.haddr.toNat / 4 = 0 →
    p.hwdata.toNat % 256 = 1 → p.tick = true → s.seqState = .emit → s.outValid = false → s.pos = s.work.len →
      ∃ t, core.run 3 s = .next t ∧ t.seqState = .check ∧ t.work = s.desc ∧ t.cmdErr = s.cmdErr) ∧
  (∀ (s : State) (p : EdgeInputs) (rest : List Line),
    s.script = .expand (.edge p) :: rest → p.rst = false → p.hsel = true → p.hwe = true → p.haddr.toNat / 4 = 0 →
    p.hwdata.toNat % 256 = 2 → p.outReady = true → s.seqState = .emit → s.outValid = true →
      ∃ t, core.run 3 s = .next t ∧ t.seqState = .idle ∧ t.outValid = false ∧
        t.delivered = s.delivered ++ [{ on := s.outOn, off := s.outOff, last := s.outLast, pos := s.pos }]) ∧
  (∀ (s : State) (p : EdgeInputs) (rest : List Line),
    s.script = .expand (.edge p) :: rest → p.rst = false → p.hsel = true → p.hwe = true → p.haddr.toNat / 4 = 0 →
    p.hwdata.toNat % 256 = 1 → p.tick = true → RunInv s → s.seqState = .check → s.pos.toNat < s.work.len.toNat →
    checkPos s.cfg s.rom s.work s.pos.toNat ≠ .ok →
      ∃ t, core.run 3 s = .next t ∧ t.seqState = .check ∧ t.work = s.desc ∧ t.cmdErr = s.cmdErr)

/-- A START issued immediately after reset runs the record `LEN = 0` and reaches DONE with no ROM read and no pair, in every
build and with every ROM (R231, R163, R165; program P5; the records of pairs and reads are the model's,
notes/assumptions/5.md). -/
def Obligations.StartAfterResetEndsWithNoRead : Prop :=
  ∀ (c : Config) (rom : Memory) (rest : List Line),
    ∃ t, core.run 3 { State.resetOf c rom with script := lineStart :: lineStep :: lineStep :: rest } = .next t ∧
      statusWord t = 0x00000003 ∧ t.pos = 0 ∧ t.delivered = [] ∧ t.romReads = [] ∧ t.script = rest

/-! ## Host writes (40_host_interface.md) -/

/-- Each write of a descriptor register is decoded from `we = 1` and its offset, stores the implemented bits of `hwdata`,
ignores the others and changes nothing else, in every state (R103 to R108). -/
def Obligations.DescriptorWriteStoresTheImplementedBits : Prop :=
  ∀ (s : State) (d : Word), s.cfg.wf →
    (decodeHost (hostBits true 0x0C) d = .wrMode d ∧
      exec (.wrMode d) s =
        .next { s with desc := { s.desc with pack := if d.toNat % 2 = 1 then .byte else .nibble } }) ∧
    (decodeHost (hostBits true 0x10) d = .wrDictBase d ∧
      ∃ v : RomBase, v.toNat = d.toNat % 2 ^ s.cfg.romAw ∧
        exec (.wrDictBase d) s = .next { s with desc := { s.desc with dictBase := v } }) ∧
    (decodeHost (hostBits true 0x14) d = .wrDictN d ∧
      exec (.wrDictN d) s = .next { s with desc := { s.desc with dictN := BitVec.ofNat 9 d.toNat } }) ∧
    (decodeHost (hostBits true 0x18) d = .wrSeqBase d ∧
      ∃ v : RomBase, v.toNat = d.toNat % 2 ^ s.cfg.romAw ∧
        exec (.wrSeqBase d) s = .next { s with desc := { s.desc with seqBase := v } }) ∧
    (decodeHost (hostBits true 0x1C) d = .wrLen d ∧
      exec (.wrLen d) s = .next { s with desc := { s.desc with len := BitVec.ofNat 16 d.toNat } }) ∧
    (decodeHost (hostBits true 0x20) d = .wrCarrier d ∧
      exec (.wrCarrier d) s = .next { s with desc := { s.desc with carrier := BitVec.ofNat 16 d.toNat } })

/-- A write of a descriptor register and then a read of it, at any of the four byte offsets of its word, returns the
implemented bits of the word written: the number of implemented bits by register (R102, R24, R112; vectors H1 to H3b). -/
def Obligations.WriteThenReadReturnsTheImplementedBits : Prop :=
  ∀ (s : State) (a b : BitVec 6) (d e : Word) (rest : List Line) (bits : Nat),
    s.cfg.wf → s.script = .act (.host true a d) :: .act (.host false b e) :: rest → a.toNat / 4 = b.toNat / 4 →
    (a.toNat / 4 = 3 ∧ bits = 1 ∨ (a.toNat / 4 = 4 ∨ a.toNat / 4 = 6) ∧ bits = s.cfg.romAw ∨
      a.toNat / 4 = 5 ∧ bits = 9 ∨ (a.toNat / 4 = 7 ∨ a.toNat / 4 = 8) ∧ bits = 16) →
      ∃ t, core.run 2 s = .next t ∧ t.hrdata.toNat = d.toNat % 2 ^ bits ∧
        t.work = s.work ∧ t.pos = s.pos ∧ SameStatus s t ∧ SameOutput s t ∧ SameRomPort s t ∧ SameRom s t ∧
        t.delivered = s.delivered ∧ t.deliveredBefore = s.deliveredBefore ∧ t.script = rest

/-- A write to a read-only register changes no state and does not set CMDERR (R109). -/
def Obligations.ReadOnlyWriteChangesNothing : Prop :=
  ∀ (s : State) (d : Word),
    (decodeHost (hostBits true 0x04) d = .wrStatus d ∧ exec (.wrStatus d) s = .next s) ∧
    (decodeHost (hostBits true 0x08) d = .wrPos d ∧ exec (.wrPos d) s = .next s) ∧
    (decodeHost (hostBits true 0x24) d = .wrCfg d ∧ exec (.wrCfg d) s = .next s)

/-- At the offsets 0x28 to 0x3F there is no register: a write changes no state, a read returns 0 and changes nothing else
(R110, R38). -/
def Obligations.UnmappedAccessReadsZeroAndWritesNothing : Prop :=
  (∀ (s : State) (haddr : BitVec 6) (d : Word), 10 ≤ haddr.toNat / 4 →
    exec (decodeHost (hostBits true haddr) d) s = .next s ∧
    exec (decodeHost (hostBits false haddr) d) s = .next { s with hrdata := 0 }) ∧
  (∀ (s : State) (d : Word),
    exec (.wrUnmapped28 d) s = .next s ∧ exec .rdUnmapped28 s = .next { s with hrdata := 0 } ∧
    exec (.wrUnmapped2C d) s = .next s ∧ exec .rdUnmapped2C s = .next { s with hrdata := 0 } ∧
    exec (.wrUnmapped30 d) s = .next s ∧ exec .rdUnmapped30 s = .next { s with hrdata := 0 } ∧
    exec (.wrUnmapped34 d) s = .next s ∧ exec .rdUnmapped34 s = .next { s with hrdata := 0 } ∧
    exec (.wrUnmapped38 d) s = .next s ∧ exec .rdUnmapped38 s = .next { s with hrdata := 0 } ∧
    exec (.wrUnmapped3C d) s = .next s ∧ exec .rdUnmapped3C s = .next { s with hrdata := 0 })

/-! ## Host reads -/

/-- Every read is free of side effects: it changes no register, only what stands on `hrdata`, and the same read again returns
the same value (R101). -/
def Obligations.HostReadHasNoSideEffect : Prop :=
  ∀ (i : Instr) (s : State), isHostRead i = true →
    ∃ v : Word, exec i s = .next { s with hrdata := v } ∧
      exec i { s with hrdata := v } = .next { s with hrdata := v }

/-- The descriptor registers, POS and CMD read as their stored fields zero-extended, CMD as 0, from `we = 0` and their
offsets; nothing else changes. They are the descriptor registers, not the working registers (R111, R112, R120). -/
def Obligations.RegisterReadReturnsTheStoredField : Prop :=
  ∀ (s : State) (d : Word),
    (decodeHost (hostBits false 0x00) d = .rdCmd ∧ exec .rdCmd s = .next { s with hrdata := 0 }) ∧
    (decodeHost (hostBits false 0x08) d = .rdPos ∧
      exec .rdPos s = .next { s with hrdata := BitVec.ofNat 32 s.pos.toNat }) ∧
    (decodeHost (hostBits false 0x0C) d = .rdMode ∧
      exec .rdMode s = .next { s with hrdata := if s.desc.pack = .byte then 1 else 0 }) ∧
    (decodeHost (hostBits false 0x10) d = .rdDictBase ∧
      exec .rdDictBase s = .next { s with hrdata := BitVec.ofNat 32 s.desc.dictBase.toNat }) ∧
    (decodeHost (hostBits false 0x14) d = .rdDictN ∧
      exec .rdDictN s = .next { s with hrdata := BitVec.ofNat 32 s.desc.dictN.toNat }) ∧
    (decodeHost (hostBits false 0x18) d = .rdSeqBase ∧
      exec .rdSeqBase s = .next { s with hrdata := BitVec.ofNat 32 s.desc.seqBase.toNat }) ∧
    (decodeHost (hostBits false 0x1C) d = .rdLen ∧
      exec .rdLen s = .next { s with hrdata := BitVec.ofNat 32 s.desc.len.toNat }) ∧
    (decodeHost (hostBits false 0x20) d = .rdCarrier ∧
      exec .rdCarrier s = .next { s with hrdata := BitVec.ofNat 32 s.desc.carrier.toNat })

/-- RD STATUS returns STATE, BUSY, ERRCODE, CMDERR, OUT_VALID and ERRIDX at their places and 0 elsewhere, BUSY being set
exactly in CHECK and EMIT, and changes nothing else (R119, R25). -/
def Obligations.StatusReadHasTheLayoutOfTheRule : Prop :=
  ∀ (s : State) (d : Word), decodeHost (hostBits false 0x04) d = .rdStatus ∧
    ∃ v : Word, exec .rdStatus s = .next { s with hrdata := v } ∧
      v.toNat = 65536 * s.errIdx.toNat + 512 * s.outValid.toNat + 256 * s.cmdErr.toNat +
        16 * (match s.errCode with | .none => 0 | .indexRange => 1 | .romRange => 2) +
        8 * (if s.seqState = .check ∨ s.seqState = .emit then 1 else 0) +
        (match s.seqState with | .idle => 0 | .check => 1 | .emit => 2 | .done => 3 | .error => 4)

/-- RD CFG returns `ROM_AW << 8 | TW16`, the same in every state of a build (R121, R37). -/
def Obligations.CfgReadReportsTheParameters : Prop :=
  ∀ (s : State) (d : Word), s.cfg.wf → decodeHost (hostBits false 0x24) d = .rdCfg ∧
    ∃ v : Word, exec .rdCfg s = .next { s with hrdata := v } ∧
      v.toNat = 256 * s.cfg.romAw + (if s.cfg.tw = .tw16 then 1 else 0)

/-! ## Commands -/

/-- A write to CMD, at any of the four byte offsets of its word, carries out the command of bits [7:0] of the data word: NOP,
START, ABORT or a reserved opcode, whatever bits [31:8] hold; it always completes (R82, R83). -/
def Obligations.WriteToCmdCarriesOutTheCommand : Prop :=
  ∀ (s : State) (haddr : BitVec 6) (d : Word), haddr.toNat / 4 = 0 →
    decodeHost (hostBits true haddr) d = .wrCmd d ∧
    (d.toNat % 256 = 0 → decodeCmd d = .nop ∧ exec (.wrCmd d) s = exec .nop s) ∧
    (d.toNat % 256 = 1 → decodeCmd d = .start ∧ exec (.wrCmd d) s = exec .start s) ∧
    (d.toNat % 256 = 2 → decodeCmd d = .abort ∧ exec (.wrCmd d) s = exec .abort s) ∧
    (3 ≤ d.toNat % 256 → decodeCmd d = .cmdReserved (BitVec.ofNat 8 d.toNat) ∧
      exec (.wrCmd d) s = exec (.cmdReserved (BitVec.ofNat 8 d.toNat)) s) ∧
    ∃ t, exec (.wrCmd d) s = .next t

/-- START while not busy: the six fields are copied, the run begins at position 0 in CHECK, the old error and a presented pair
are discarded; CMDERR, the descriptor registers, the output values and the ROM stay, and no ROM byte is read (R114). The records
of pairs and reads, which begin anew here, are the model's (notes/assumptions/5.md). -/
def Obligations.StartWhileIdleBeginsTheCheckPass : Prop :=
  ∀ s : State, (s.seqState = .idle ∨ s.seqState = .done ∨ s.seqState = .error) →
    ∃ t, exec .start s = .next t ∧
      t.work = s.desc ∧ t.pos = 0 ∧ t.errCode = .none ∧ t.errIdx = 0 ∧ t.outValid = false ∧ t.seqState = .check ∧
      t.cmdErr = s.cmdErr ∧ t.desc = s.desc ∧ t.outOn = s.outOn ∧ t.outOff = s.outOff ∧ t.outLast = s.outLast ∧
      (outPorts t).carrierO = s.desc.carrier ∧ t.hrdata = s.hrdata ∧ t.latch = s.latch ∧ t.romEn = s.romEn ∧
      t.romReads = [] ∧ t.delivered = [] ∧ t.deliveredBefore = s.deliveredBefore ++ s.delivered ∧
      t.script = s.script ∧ SameRom s t

/-- ABORT from any state returns to IDLE and clears POS, OUT_VALID, ERRCODE, ERRIDX and CMDERR; the working registers (so
`carrier_o`), the descriptor registers and the pairs already transferred stay (R116). -/
def Obligations.AbortReturnsToIdle : Prop :=
  ∀ s : State, ∃ t, exec .abort s = .next t ∧
    t.seqState = .idle ∧ t.pos = 0 ∧ t.outValid = false ∧ t.errCode = .none ∧ t.errIdx = 0 ∧ t.cmdErr = false ∧
    statusWord t = 0 ∧
    t.work = s.work ∧ (outPorts t).carrierO = (outPorts s).carrierO ∧ t.desc = s.desc ∧ t.outOn = s.outOn ∧
    t.outOff = s.outOff ∧ t.outLast = s.outLast ∧ SameOutside s t ∧ SameRomPort s t ∧ t.script = s.script ∧ SameRom s t

/-- NOP changes no state (R113). START while busy (R115) and a reserved opcode in any state, every reserved opcode alike (R117),
set CMDERR and nothing else. -/
def Obligations.NopRejectedStartAndReservedTouchOnlyCmdErr : Prop :=
  ∀ s : State,
    (exec .nop s = .next s ∧ ∀ w : Word, w.toNat % 256 = 0 → decodeCmd w = .nop) ∧
    ((s.seqState = .check ∨ s.seqState = .emit) → exec .start s = .next { s with cmdErr := true }) ∧
    (∀ op : BitVec 8, 3 ≤ op.toNat →
      exec (.cmdReserved op) s = .next { s with cmdErr := true } ∧ decodeCmd (op.setWidth 32) = .cmdReserved op)

/-! ## The unpacker (41_unpacker.md) -/

/-- The index of a position: the byte at `seqAddr(i)`, its high nibble at an even and its low nibble at an odd position under
nibble packing, the whole byte under byte packing (R140, R141, R142). The index bytes of a record of length `L` are exactly the
`seqBytes(L)` bytes from its base (R143, R88). -/
def Obligations.IndexIsTheNibbleOrByteOfItsPosition : Prop :=
  ∀ (rom : Memory) (r : Record) (i j L : Nat),
    (r.pack = .nibble →
      seqAddr r (2 * j) = r.seqBase.toNat + j ∧ seqAddr r (2 * j + 1) = r.seqBase.toNat + j ∧
      (idx rom r (2 * j)).toNat = (rom.read (r.seqBase.toNat + j)).toNat / 16 ∧
      (idx rom r (2 * j + 1)).toNat = (rom.read (r.seqBase.toNat + j)).toNat % 16 ∧
      seqBytes r.pack L = (L + 1) / 2) ∧
    (r.pack = .byte →
      seqAddr r i = r.seqBase.toNat + i ∧ (idx rom r i).toNat = (rom.read (r.seqBase.toNat + i)).toNat ∧
      seqBytes r.pack L = L) ∧
    (i < L → r.seqBase.toNat ≤ seqAddr r i ∧ seqAddr r i < r.seqBase.toNat + seqBytes r.pack L) ∧
    (j < seqBytes r.pack L → ∃ n < L, seqAddr r n = r.seqBase.toNat + j)

/-- An entry: `on` first, then `off`, 8-bit fields zero-extended, 16-bit fields little-endian, entry `k` at
`W_DICT_BASE + k * ESZ` (R144, R145, R146). -/
def Obligations.EntryFieldsAreUnsignedAndLittleEndian : Prop :=
  ∀ (c : Config) (rom : Memory) (r : Record) (k : BitVec 8),
    (c.tw = .tw8 → entryAddr c r k = r.dictBase.toNat + 2 * k.toNat ∧
      (entry c rom r k).1.toNat = (rom.read (r.dictBase.toNat + 2 * k.toNat)).toNat ∧
      (entry c rom r k).2.toNat = (rom.read (r.dictBase.toNat + 2 * k.toNat + 1)).toNat) ∧
    (c.tw = .tw16 → entryAddr c r k = r.dictBase.toNat + 4 * k.toNat ∧
      (entry c rom r k).1.toNat = (rom.read (r.dictBase.toNat + 4 * k.toNat)).toNat +
        256 * (rom.read (r.dictBase.toNat + 4 * k.toNat + 1)).toNat ∧
      (entry c rom r k).2.toNat = (rom.read (r.dictBase.toNat + 4 * k.toNat + 2)).toNat +
        256 * (rom.read (r.dictBase.toNat + 4 * k.toNat + 3)).toNat)

/-- The tests of a position in their order: the index byte's address, the index, the entry's range; an index that is out of
range and has an entry outside the ROM reports INDEX_RANGE; index `N - 1` can pass and index `N` cannot (R147, R206). With
`W_DICT_N` above the largest index of the packing the index check never fails (R151). -/
def Obligations.PositionCheckTestsInOrder : Prop :=
  ∀ (c : Config) (rom : Memory) (r : Record) (i : Nat),
    (c.romSize ≤ seqAddr r i → checkPos c rom r i = .err .romRange 0) ∧
    (seqAddr r i < c.romSize → r.dictN.toNat ≤ (idx rom r i).toNat →
      checkPos c rom r i = .err .indexRange (idx rom r i)) ∧
    (seqAddr r i < c.romSize → (idx rom r i).toNat < r.dictN.toNat →
      (c.romSize < entryAddr c r (idx rom r i) + esz c → checkPos c rom r i = .err .romRange (idx rom r i)) ∧
      (entryAddr c r (idx rom r i) + esz c ≤ c.romSize → checkPos c rom r i = .ok)) ∧
    ((r.pack = .nibble ∧ 15 < r.dictN.toNat ∨ r.pack = .byte ∧ 255 < r.dictN.toNat) →
      ∀ k, checkPos c rom r i ≠ .err .indexRange k)

/-- Under nibble packing with odd `W_LEN` the lo nibble of the last index byte is never used and never checked: a ROM that
differs in that nibble only resolves and checks every position of the record alike (R150). -/
def Obligations.UnusedNibbleHasNoEffect : Prop :=
  ∀ (c : Config) (rom rom' : Memory) (r : Record), r.pack = .nibble → r.len.toNat % 2 = 1 →
    (∀ a, a ≠ seqAddr r (r.len.toNat - 1) → rom'.read a = rom.read a) →
    (rom'.read (seqAddr r (r.len.toNat - 1))).toNat / 16 = (rom.read (seqAddr r (r.len.toNat - 1))).toNat / 16 →
      ∀ i < r.len.toNat, idx rom' r i = idx rom r i ∧ checkPos c rom' r i = checkPos c rom r i

/-! ## Index bytes and entries as the sequencer runs them (42_sequencer.md) -/

/-- An index byte in the CHECK pass whose index is below the dictionary size and whose entry is in the ROM: the position is
validated, and nothing else changes but the latch of a build that has one (R161; the hi nibble, the lo nibble or the whole byte is
the index by the format, R141, R142). -/
def Obligations.CheckedIndexAdvancesThePosition : Prop :=
  ∀ (i : Instr) (k : BitVec 8) (s : State), indexOperand i = some k →
    s.seqState = .check → s.pos.toNat < s.work.len.toNat →
    k.toNat < s.work.dictN.toNat → entryAddr s.cfg s.work k + esz s.cfg ≤ s.cfg.romSize →
      exec i s = .next { s with pos := s.pos + 1, latch := latchAfter i s }

/-- An index byte in the CHECK pass that fails: ERROR with the code and the index, POS and everything else unchanged but the
latch of a build that has one (R162, R203; the order of the tests is R206's). -/
def Obligations.FailedIndexEntersTheErrorState : Prop :=
  ∀ (i : Instr) (k : BitVec 8) (s : State), indexOperand i = some k →
    s.seqState = .check → s.pos.toNat < s.work.len.toNat →
    (s.work.dictN.toNat ≤ k.toNat → exec i s =
      .next { s with seqState := .error, errCode := .indexRange, errIdx := k, latch := latchAfter i s }) ∧
    (k.toNat < s.work.dictN.toNat → s.cfg.romSize < entryAddr s.cfg s.work k + esz s.cfg → exec i s =
      .next { s with seqState := .error, errCode := .romRange, errIdx := k, latch := latchAfter i s })

/-- An index byte in the EMIT pass, nothing presented, its entry in the ROM: the `ESZ` bytes of the entry are read in
increasing address and the pair is presented, with `out_last` exactly at the last position (R148, R164, R166). -/
def Obligations.EmittedIndexPresentsItsEntry : Prop :=
  ∀ (i : Instr) (k : BitVec 8) (s : State), indexOperand i = some k →
    s.seqState = .emit → s.outValid = false → s.pos.toNat < s.work.len.toNat →
    entryAddr s.cfg s.work k + esz s.cfg ≤ s.cfg.romSize →
      exec i s = .next { s with
        outOn := (entry s.cfg s.rom s.work k).1, outOff := (entry s.cfg s.rom s.work k).2
        outLast := decide (s.pos.toNat + 1 = s.work.len.toNat), outValid := true
        romReads := s.romReads ++ (List.range (esz s.cfg)).map (entryAddr s.cfg s.work k + ·)
        romEn := false, latch := latchAfter i s }

/-- A dictionary entry in the EMIT pass, nothing presented: the pair is presented, 8-bit durations zero-extended and 16-bit
durations unchanged; nothing else changes (R145, R146, R152, R166). -/
def Obligations.EntryIsPresentedUnchanged : Prop :=
  ∀ (s : State), s.seqState = .emit → s.outValid = false → s.pos.toNat < s.work.len.toNat →
    (∀ on off : BitVec 8, exec (.entryTw8 on off) s = .next { s with
      outOn := BitVec.ofNat 16 on.toNat, outOff := BitVec.ofNat 16 off.toNat
      outLast := decide (s.pos.toNat + 1 = s.work.len.toNat), outValid := true }) ∧
    (∀ on off : BitVec 16, exec (.entryTw16 on off) s = .next { s with
      outOn := on, outOff := off
      outLast := decide (s.pos.toNat + 1 = s.work.len.toNat), outValid := true })

/-! ## The sequencer's and the consumer's steps -/

/-- CHECK_NEXT: a position that passes is validated and only `POS`, the ROM port and the latch change (R161). -/
def Obligations.CheckNextValidatesOnePosition : Prop :=
  ∀ s : State, RunInv s → Next s .seq → s.seqState = .check → s.pos.toNat < s.work.len.toNat →
    checkPos s.cfg s.rom s.work s.pos.toNat = .ok →
      ∃ t, step s = .next t ∧ t.pos.toNat = s.pos.toNat + 1 ∧
        t.work = s.work ∧ t.desc = s.desc ∧ SameStatus s t ∧ SameOutput s t ∧ SameOutside s t ∧ SameRom s t ∧
        t.script = s.script.tail ∧
        (s.romEn = false → t.romEn = false) ∧ (s.cfg.latch = false → t.latch = s.latch) ∧
        t.romReads = s.romReads ++
          (if s.cfg.latch = true ∧ s.work.pack = .nibble ∧ s.pos.toNat % 2 = 1 then []
           else [seqAddr s.work s.pos.toNat])

/-- CHECK_FAIL: a position that fails with `Err(code, k)` puts the block in ERROR with that code and that index, `POS` at the
failing position, every position below it passed, nothing presented and nothing transferred; the index byte is read only if it is
in the ROM (R162, R203), and in a build with the index latch not at an odd nibble position (R42, notes/assumptions/6.md). The
record of reads is the model's (notes/assumptions/5.md). -/
def Obligations.CheckFailRecordsTheError : Prop :=
  ∀ (s : State) (code : ErrCode) (k : BitVec 8), RunInv s → Next s .seq → s.seqState = .check →
    s.pos.toNat < s.work.len.toNat → checkPos s.cfg s.rom s.work s.pos.toNat = .err code k →
      ∃ t, step s = .next t ∧ t.seqState = .error ∧ t.errCode = code ∧ t.errIdx = k ∧ t.pos = s.pos ∧
        (∀ i < t.pos.toNat, checkPos t.cfg t.rom t.work i = .ok) ∧ t.cmdErr = s.cmdErr ∧ t.work = s.work ∧ t.desc = s.desc ∧ SameOutput s t ∧ t.outValid = false ∧
        SameOutside s t ∧ SameRom s t ∧ t.script = s.script.tail ∧
        (s.romEn = false → t.romEn = false) ∧ (s.cfg.latch = false → t.latch = s.latch) ∧
        t.romReads = s.romReads ++
          (if s.cfg.romSize ≤ seqAddr s.work s.pos.toNat ∨
              s.cfg.latch = true ∧ s.work.pack = .nibble ∧ s.pos.toNat % 2 = 1 then []
           else [seqAddr s.work s.pos.toNat])

/-- EMIT_LOAD: the pair of the position is presented, `out_last` at the last position only; the index byte (unless latched)
and the `ESZ` entry bytes are read (R164, R166, R148). -/
def Obligations.EmitLoadPresentsThePair : Prop :=
  ∀ s : State, RunInv s → Next s .seq → s.seqState = .emit → s.outValid = false → s.pos.toNat < s.work.len.toNat →
    ∃ t, step s = .next t ∧ t.outValid = true ∧
      t.outOn = (pair s.cfg s.rom s.work s.pos.toNat).1 ∧ t.outOff = (pair s.cfg s.rom s.work s.pos.toNat).2 ∧
      (t.outLast = true ↔ s.pos.toNat = s.work.len.toNat - 1) ∧
      t.pos = s.pos ∧ t.work = s.work ∧ t.desc = s.desc ∧ SameStatus s t ∧ SameOutside s t ∧ SameRom s t ∧
      t.script = s.script.tail ∧ t.romEn = false ∧ (s.cfg.latch = false → t.latch = s.latch) ∧
      t.romReads = s.romReads ++
        (if s.cfg.latch = true ∧ s.work.pack = .nibble ∧ s.pos.toNat % 2 = 1 then []
         else [seqAddr s.work s.pos.toNat]) ++
        (List.range (esz s.cfg)).map (entryAddr s.cfg s.work (idx s.rom s.work s.pos.toNat) + ·)

/-- CHECK_END: with every position validated the EMIT pass starts at position 0 (R163). EMIT_END: after the last transfer the
run is DONE (R165). Nothing else changes and no ROM byte is read. -/
def Obligations.PassEndsChangeOnlyStateAndPosition : Prop :=
  ∀ s : State, Next s .seq → s.pos = s.work.len →
    (s.seqState = .check → step s = .next { s with pos := 0, seqState := .emit, script := s.script.tail }) ∧
    (s.seqState = .emit → s.outValid = false → step s = .next { s with seqState := .done, script := s.script.tail })

/-- XFER: the consumer receives `(OUT_ON, OUT_OFF, OUT_LAST, POS)`, OUT_VALID falls and POS advances; nothing else changes
(R167). -/
def Obligations.TransferDeliversThePresentedPair : Prop :=
  ∀ s : State, Next s .xfer → s.seqState = .emit → s.outValid = true →
    step s = .next { s with
      outValid := false, pos := s.pos + 1, script := s.script.tail
      delivered := s.delivered ++ [{ on := s.outOn, off := s.outOff, last := s.outLast, pos := s.pos }] }

/-- No sequencer step is enabled in IDLE, DONE and ERROR or while a pair is presented (a hang if the consumer never takes it),
and no transfer outside a presented pair: the turn changes nothing (R168, R240; vectors S6, S7). -/
def Obligations.NoStepIsInventedWhereNoneIsEnabled : Prop :=
  (∀ s : State, Next s .seq →
    (s.seqState = .idle ∨ s.seqState = .done ∨ s.seqState = .error ∨ s.seqState = .emit ∧ s.outValid = true) →
      step s = .next { s with script := s.script.tail }) ∧
  (∀ s : State, Next s .xfer → (s.seqState ≠ .emit ∨ s.outValid = false) →
    step s = .next { s with script := s.script.tail })

/-! ## Rules of the whole machine -/

/-- While a pair is presented the output register and `out_pos` do not change until the transfer, an ABORT or a reset (R166). -/
def Obligations.PresentedPairIsStable : Prop :=
  ∀ s t : State, StatusInv s → s.outValid = true → step s = .next t →
    (SameOutput s t ∧ (outPorts t).outPos = (outPorts s).outPos) ∨
      Next s .xfer ∨ NextCommand s 2 ∨ Next s .rst

/-- POS only ever increases by 1 or is set to 0 (R30). -/
def Obligations.PositionStepsByOneOrClears : Prop :=
  ∀ s t : State, StatusInv s → step s = .next t →
    t.pos = s.pos ∨ t.pos.toNat = s.pos.toNat + 1 ∧ (Next s .seq ∨ Next s .xfer ∨ s.script = []) ∨ t.pos = 0

/-- The working registers are written only by an accepted START, which copies the descriptor registers, and by reset (R39). -/
def Obligations.WorkingRegistersAreWrittenOnlyByStart : Prop :=
  ∀ s t : State, step s = .next t →
    t.work = s.work ∨ NextCommand s 1 ∧ busy s = false ∧ t.work = s.desc ∨ Next s .rst ∧ t.work = Record.zero

/-- The descriptor registers are written only by host accesses and by reset (R20). -/
def Obligations.DescriptorRegistersAreWrittenOnlyByTheHost : Prop :=
  ∀ s t : State, step s = .next t → t.desc = s.desc ∨ NextHost s ∨ Next s .rst ∧ t.desc = Record.zero

/-- CMDERR is set only by a START while busy and by a reserved opcode, and cleared only by ABORT and by reset (R28). -/
def Obligations.CmdErrIsSetAndClearedOnlyByCommands : Prop :=
  ∀ s t : State, step s = .next t →
    (s.cmdErr = false → t.cmdErr = true → NextCommand s 1 ∧ busy s = true ∨ ∃ op, 3 ≤ op ∧ NextCommand s op) ∧
    (s.cmdErr = true → t.cmdErr = false → NextCommand s 2 ∨ Next s .rst) ∧
    (NextCommand s 1 → busy s = true → t.cmdErr = true) ∧ (∀ op, 3 ≤ op → NextCommand s op → t.cmdErr = true)

/-- The state ERROR is left only by an accepted START, by ABORT or by reset (R208), and until then the result stays (R237). -/
def Obligations.ErrorIsLeftOnlyByStartAbortOrReset : Prop :=
  ∀ s t : State, s.seqState = .error → step s = .next t →
    (t.seqState = .error ∧ t.errCode = s.errCode ∧ t.errIdx = s.errIdx ∧ t.pos = s.pos) ∨
    (NextCommand s 1 ∧ t.seqState = .check ∧ t.errCode = .none ∧ t.errIdx = 0) ∨
    ((NextCommand s 2 ∨ Next s .rst) ∧ t.seqState = .idle ∧ t.errCode = .none ∧ t.errIdx = 0)

/-- No step changes the parameters or a byte of the ROM (R7, R66). -/
def Obligations.RomAndParametersNeverChange : Prop :=
  ∀ s t : State, step s = .next t → SameRom s t

/-- A descriptor write during a run has no effect on the run in progress: the write and a sequencer step or transfer can be
exchanged (R234). -/
def Obligations.DescriptorWriteDoesNotDisturbTheRun : Prop :=
  ∀ (i : Instr) (e : Event) (s u v : State), isDescriptorWrite i = true → (e = .seq ∨ e = .xfer) →
    exec i s = .next u → act e u = .next v → ∃ w, act e s = .next w ∧ exec i w = .next v

/-- No rule depends on the ROM latency or on the block's base address (R9, R214): a build with others steps alike. -/
def Obligations.LatencyAndBaseAddressHaveNoEffect : Prop :=
  ∀ (s t : State) (romLat irdxBase : Nat), step s = .next t →
    step (withTiming romLat irdxBase s) = .next (withTiming romLat irdxBase t)

/-- `LOAD` is the six descriptor writes of R94: after it the descriptor holds the record and nothing else has changed but the
schedule. Its seven steps are the six writes and the expansion, which is a step of its own in the model
(notes/assumptions/14.md). -/
def Obligations.LoadWritesTheSixDescriptorRegisters : Prop :=
  ∀ (s : State) (dict n seq len carrier pack : Word) (rest : List Line), s.cfg.wf →
    s.script = .expand (.load dict n seq len carrier pack) :: rest →
      ∃ t, core.run 7 s = .next t ∧
        t.desc.dictBase.toNat = dict.toNat % 2 ^ s.cfg.romAw ∧ t.desc.dictN.toNat = n.toNat % 512 ∧
        t.desc.seqBase.toNat = seq.toNat % 2 ^ s.cfg.romAw ∧ t.desc.len.toNat = len.toNat % 65536 ∧
        t.desc.carrier.toNat = carrier.toNat % 65536 ∧ (t.desc.pack = .byte ↔ pack.toNat % 2 = 1) ∧
        { t with desc := s.desc, script := s.script } = s ∧ t.script = rest

/-! ## Invariants and whole runs -/

/-- The reset state of every legal build with every canonical ROM image, under every schedule, meets every invariant (R44, R45),
and so does `State.reset`, whose build is the model's choice (notes/assumptions/2.md and 3.md). -/
def Obligations.ResetMeetsTheInvariants : Prop :=
  (∀ (c : Config) (rom : Memory) (script : List Line), c.wf → rom.wf = true →
    StatusInv { State.resetOf c rom with script := script } ∧ RunInv { State.resetOf c rom with script := script } ∧
    RomPortInv { State.resetOf c rom with script := script } ∧ WidthInv { State.resetOf c rom with script := script }) ∧
  StatusInv State.reset ∧ RunInv State.reset ∧ RomPortInv State.reset ∧ WidthInv State.reset

/-- Every step keeps the invariants of R44. -/
def Obligations.StepKeepsTheStatusInvariants : Prop :=
  ∀ s t : State, StatusInv s → step s = .next t → StatusInv t

/-- The invariants of R44 hold in every reachable state: of every build, with every ROM, under every schedule. -/
def Obligations.ReachableStatesMeetTheStatusInvariants : Prop :=
  ∀ s : State, Reachable s → StatusInv s

/-- Every step keeps what the passes of a run have established (R160, R164, R170, R171). -/
def Obligations.StepKeepsTheRunInvariant : Prop :=
  ∀ s t : State, RunInv s → step s = .next t → RunInv t

/-- Every step keeps the parameter ranges, the canonical ROM image and the widths of the base registers (R7, R8). -/
def Obligations.StepKeepsTheWidths : Prop :=
  ∀ s t : State, WidthInv s → step s = .next t → WidthInv t

/-- In a state of a run no step faults or is refused: every agent can always move on, and no ROM read of the EMIT pass is
outside the ROM (R164, R11). -/
def Obligations.RunNeverStops : Prop :=
  ∀ s : State, RunInv s → ∃ t, step s = .next t

/-- Success: a run that reaches DONE has delivered exactly `W_LEN` pairs, the one with `out_pos = i` being `pair(i)`, with
`out_last` on the last only (R170). -/
def Obligations.DoneRunHasDeliveredEveryPair : Prop :=
  ∀ s : State, Reachable s → s.seqState = .done →
    s.delivered.length = s.work.len.toNat ∧
    ∀ (i : Nat) (x : Transfer), s.delivered[i]? = some x →
      x.pos.toNat = i ∧ (x.on, x.off) = entry s.cfg s.rom s.work (idx s.rom s.work i) ∧
        (x.last = true ↔ i + 1 = s.work.len.toNat)

/-- Failure: a run that reaches ERROR has delivered no pair, and POS is the lowest position that does not pass (R171). -/
def Obligations.FailedRunHasDeliveredNothing : Prop :=
  ∀ s : State, Reachable s → s.seqState = .error →
    s.delivered = [] ∧ checkPos s.cfg s.rom s.work s.pos.toNat ≠ .ok ∧
      ∀ i < s.pos.toNat, checkPos s.cfg s.rom s.work i = .ok

/-- A run reads only the index bytes of its record and the entry bytes of its positions, never at or above `ROM_SIZE`; in the
CHECK pass and in a failed run only the index bytes of the positions up to POS (R74, R67). -/
def Obligations.RunReadsOnlyTheBytesOfItsRecord : Prop :=
  ∀ s : State, Reachable s → RomPortInv s

/-- Two finished runs of the same record with the same `TW`, `ROM_SIZE` and ROM contents end in the same state with the same
POS, ERRCODE and ERRIDX and have delivered the same pairs, whatever the schedules and whether or not a build has the index latch
(R172). -/
def Obligations.FinishedRunsOfOneRecordAgree : Prop :=
  ∀ s t : State, Reachable s → Reachable t → Finished s → Finished t →
    s.cfg.tw = t.cfg.tw → s.cfg.romSize = t.cfg.romSize → (∀ a, s.rom.read a = t.rom.read a) → s.work = t.work →
      s.seqState = t.seqState ∧ s.pos = t.pos ∧ s.errCode = t.errCode ∧ s.errIdx = t.errIdx ∧ s.delivered = t.delivered

/-- A build with the index latch is not told apart from one that reads the byte again: on every state of a run the two step
alike but for the latch itself and the ROM reads it saves (R42). -/
def Obligations.IndexLatchIsUnobservable : Prop :=
  ∀ s t : State, RunInv s → RomPortInv s → step s = .next t →
    ∃ u, step (withoutLatch s) = .next u ∧ withoutLatch u = withoutLatch t

/-- A successful run of length `L` takes `L + 1` CHECK steps, `L` loads, `L` transfers and one EMIT_END after its START, no
fewer: after START and `n ≤ L` steps the run is in CHECK at position `n`, after the next it is in EMIT, each load presents the
pair of its position and each transfer takes it, so that after every shorter non-empty prefix of the schedule the run is still
busy; then every pair has been delivered. A run whose first failing position is `p` takes `p + 1` CHECK steps: before the last it
is in CHECK at the position of the step to come, and then it is in ERROR with the error of position `p` and no pair delivered
(R173). -/
def Obligations.RunEndsInItsStepCount : Prop :=
  (∀ (s : State) (rest : List Line), busy s = false → AllPass s.cfg s.rom s.desc →
    s.script = lineStart :: successSchedule s.desc.len.toNat ++ rest →
      (∀ n ≤ s.desc.len.toNat, ∃ u, core.run (n + 1) s = .next u ∧ u.seqState = .check ∧ u.pos.toNat = n) ∧
      (∀ j ≤ s.desc.len.toNat, ∃ u, core.run (s.desc.len.toNat + 2 * j + 2) s = .next u ∧ u.seqState = .emit ∧
        u.outValid = false ∧ u.pos.toNat = j ∧ u.delivered.length = j) ∧
      (∀ j < s.desc.len.toNat, ∃ u, core.run (s.desc.len.toNat + 2 * j + 3) s = .next u ∧ u.seqState = .emit ∧
        u.outValid = true ∧ u.pos.toNat = j ∧ u.delivered.length = j) ∧
      (∀ n, 1 ≤ n → n < 3 * s.desc.len.toNat + 3 → ∃ u, core.run n s = .next u ∧ busy u = true) ∧
      ∃ t, core.run (3 * s.desc.len.toNat + 3) s = .next t ∧ t.seqState = .done ∧ t.pos = s.desc.len ∧
        t.outValid = false ∧ t.delivered = expectedRun s.cfg s.rom s.desc ∧ t.script = rest) ∧
  (∀ (s : State) (rest : List Line) (p : Nat) (code : ErrCode) (k : BitVec 8),
    busy s = false → p < s.desc.len.toNat → (∀ i < p, checkPos s.cfg s.rom s.desc i = .ok) →
    checkPos s.cfg s.rom s.desc p = .err code k →
    s.script = lineStart :: List.replicate (p + 1) (.act .seq) ++ rest →
      (∀ n ≤ p, ∃ u, core.run (n + 1) s = .next u ∧ u.seqState = .check ∧ u.pos.toNat = n ∧ busy u = true) ∧
      ∃ t, core.run (p + 2) s = .next t ∧ t.seqState = .error ∧ t.errCode = code ∧ t.errIdx = k ∧ t.pos.toNat = p ∧
        t.delivered = [] ∧ t.outValid = false ∧ t.script = rest)

/-- `RUN` with a ready consumer: `CMD START`, then each enabled step and transfer at once until DONE or ERROR. A record of length
`L` whose positions all pass takes `2L + 2` turns of the loop, and every pair has been delivered; a record whose first failing
position is `p` takes `p + 1` turns and ends in ERROR with the error of that position and nothing delivered (R94, R170, R171; the
loop's turns and the expansions as steps of their own are the model's, notes/assumptions/14.md). -/
def Obligations.RunPseudoOperationDeliversTheRecord : Prop :=
  (∀ (s : State) (rest : List Line), busy s = false → AllPass s.cfg s.rom s.desc →
    s.script = .expand .run :: rest →
      ∃ t, core.run (6 * s.desc.len.toNat + 9) s = .next t ∧ t.seqState = .done ∧ t.pos = s.desc.len ∧
        t.delivered = expectedRun s.cfg s.rom s.desc ∧ t.script = rest) ∧
  (∀ (s : State) (rest : List Line) (p : Nat) (code : ErrCode) (k : BitVec 8),
    busy s = false → p < s.desc.len.toNat → (∀ i < p, checkPos s.cfg s.rom s.desc i = .ok) →
    checkPos s.cfg s.rom s.desc p = .err code k → s.script = .expand .run :: rest →
      ∃ t, core.run (3 * p + 6) s = .next t ∧ t.seqState = .error ∧ t.errCode = code ∧ t.errIdx = k ∧ t.pos.toNat = p ∧
        t.delivered = [] ∧ t.outValid = false ∧ t.script = rest)

/-- `POLL` is `RD STATUS` again and again until the word read has `BUSY = 0`; it transfers nothing itself (R94). Not busy, one
read ends it. Busy, the read is followed by what the schedule has the other agents do before the next one, or, where the schedule
says no more, by a turn of the sequencer (R174; that turn, and the expansions as steps of their own, are the model's choice,
notes/assumptions/14.md). Where the schedule says no more: with a pair presented it never ends, and however long it polls nothing
but `hrdata` changes (R240); a run in CHECK whose first failing position is `p` it follows to ERROR, the last word read being the
status at its end. -/
def Obligations.PollIsRepeatedStatusReads : Prop :=
  (∀ (s : State) (others : List (List Event)) (rest : List Line), busy s = false →
    s.script = .expand (.poll others) :: rest →
      core.run 3 s = .next { s with hrdata := statusWord s, script := rest }) ∧
  (∀ (s : State) (es : List Event) (others : List (List Event)) (rest : List Line), busy s = true →
    s.script = .expand (.poll (es :: others)) :: rest →
      core.run 3 s = .next { s with
        hrdata := statusWord s, script := es.map .act ++ .expand (.poll others) :: rest }) ∧
  (∀ (s : State) (rest : List Line), busy s = true → s.script = .expand (.poll []) :: rest →
    core.run 3 s = .next { s with hrdata := statusWord s, script := .act .seq :: .expand (.poll []) :: rest }) ∧
  (∀ (s : State) (rest : List Line) (k : Nat), s.seqState = .emit → s.outValid = true →
    s.script = .expand (.poll []) :: rest →
      core.run (4 * (k + 1)) s = .next { s with hrdata := statusWord s }) ∧
  (∀ (s : State) (rest : List Line) (p : Nat) (code : ErrCode) (k : BitVec 8), RunInv s → s.seqState = .check →
    s.pos.toNat ≤ p → p < s.work.len.toNat → (∀ i < p, checkPos s.cfg s.rom s.work i = .ok) →
    checkPos s.cfg s.rom s.work p = .err code k → s.script = .expand (.poll []) :: rest →
      ∃ t, core.run (4 * (p - s.pos.toNat) + 7) s = .next t ∧ t.seqState = .error ∧ t.errCode = code ∧ t.errIdx = k ∧
        t.pos.toNat = p ∧ t.delivered = [] ∧ t.hrdata = statusWord t ∧ busy t = false ∧ t.script = rest)
end

