-- ==== Sys2Proof/Laws/Decode.lean ====
section
/-! SUPPORT. Bit fields, byte order and the selection of a host access, each said once. -/

namespace Sys2Proof

/-- A word assembled from its own bytes. -/
@[simp] theorem le32_of_bytes (v : Word) :
    le32 (v.extractLsb' 0 8) (v.extractLsb' 8 8) (v.extractLsb' 16 8) (v.extractLsb' 24 8) = v := by
  apply BitVec.eq_of_getLsbD_eq
  intro i hi
  simp only [le32, BitVec.getLsbD_append, BitVec.getLsbD_extractLsb']
  by_cases h1 : i < 8
  · simp [h1]
  · by_cases h2 : i < 16
    · simp [h1, show i - 8 < 8 by omega, show 8 + (i - 8) = i by omega]
    · by_cases h3 : i < 24
      · simp [h1, show ¬(i - 8 < 8) by omega, show i - 8 - 8 < 8 by omega, show 16 + (i - 8 - 8) = i by omega]
      · simp [h1, show ¬(i - 8 < 8) by omega, show ¬(i - 8 - 8 < 8) by omega, show i - 8 - 8 - 8 < 8 by omega,
          show 24 + (i - 8 - 8 - 8) = i by omega]

/-- A 16-bit field assembled from its own bytes. -/
@[simp] theorem le16_of_bytes (v : Half) : le16 (v.extractLsb' 0 8) (v.extractLsb' 8 8) = v := by
  apply BitVec.eq_of_getLsbD_eq
  intro i hi
  simp only [le16, BitVec.getLsbD_append, BitVec.getLsbD_extractLsb']
  by_cases h1 : i < 8
  · simp [h1]
  · simp [h1, show i - 8 < 8 by omega, show 8 + (i - 8) = i by omega]

/-- A little-endian 16-bit field as a number. -/
@[simp] theorem le16_toNat (b0 b1 : Byte) : (le16 b0 b1).toNat = b0.toNat + 256 * b1.toNat := by
  have h0 := b0.isLt
  simp only [le16, BitVec.toNat_append]
  rw [Nat.shiftLeft_eq, Nat.mul_comm, ← Nat.two_pow_add_eq_or_of_lt h0]
  omega

@[simp] theorem hiNibble_append (hi lo : BitVec 4) : hiNibble (hi ++ lo) = hi := by
  apply BitVec.eq_of_getLsbD_eq
  intro i h
  simp only [hiNibble, BitVec.getLsbD_append, BitVec.getLsbD_extractLsb']
  simp [h]

@[simp] theorem loNibble_append (hi lo : BitVec 4) : loNibble (hi ++ lo) = lo := by
  apply BitVec.eq_of_getLsbD_eq
  intro i h
  simp only [loNibble, BitVec.getLsbD_append, BitVec.getLsbD_extractLsb']
  simp [h]

@[simp] theorem nibbles_append (b : Byte) : hiNibble b ++ loNibble b = b := by
  revert b; decide

/-- The high nibble as a number. -/
@[simp] theorem hiNibble_toNat (b : Byte) : (hiNibble b).toNat = b.toNat / 16 := by revert b; decide

/-- The low nibble as a number. -/
@[simp] theorem loNibble_toNat (b : Byte) : (loNibble b).toNat = b.toNat % 16 := by revert b; decide

/-- The opcode of a command word as a number. -/
theorem opcode_toNat (w : Word) : (w.extractLsb' 0 8).toNat = w.toNat % 256 := by simp

namespace Machine

/-- What a host access is, by its direction and word number (R81, R24). -/
theorem decodeHost_cases (we : Bool) (a : BitVec 6) (d : Word) :
    decodeHost (hostBits we a) d =
      match we, a.toNat / 4 with
      | true, 0 => .wrCmd d | true, 1 => .wrStatus d | true, 2 => .wrPos d | true, 3 => .wrMode d
      | true, 4 => .wrDictBase d | true, 5 => .wrDictN d | true, 6 => .wrSeqBase d | true, 7 => .wrLen d
      | true, 8 => .wrCarrier d | true, 9 => .wrCfg d | true, 10 => .wrUnmapped28 d | true, 11 => .wrUnmapped2C d
      | true, 12 => .wrUnmapped30 d | true, 13 => .wrUnmapped34 d | true, 14 => .wrUnmapped38 d | true, _ => .wrUnmapped3C d
      | false, 0 => .rdCmd | false, 1 => .rdStatus | false, 2 => .rdPos | false, 3 => .rdMode
      | false, 4 => .rdDictBase | false, 5 => .rdDictN | false, 6 => .rdSeqBase | false, 7 => .rdLen
      | false, 8 => .rdCarrier | false, 9 => .rdCfg | false, 10 => .rdUnmapped28 | false, 11 => .rdUnmapped2C
      | false, 12 => .rdUnmapped30 | false, 13 => .rdUnmapped34 | false, 14 => .rdUnmapped38 | false, _ => .rdUnmapped3C := by
  obtain ⟨n, hn, rfl⟩ : ∃ n < 64, a = BitVec.ofNat 6 n := ⟨a.toNat, a.isLt, by simp⟩
  interval_cases n <;> cases we <;> rfl

end Machine

end Sys2Proof
end

