-- ==== Sys2Proof/Laws/State.lean ====
section
/-! SUPPORT. What each field is after each named update: one lemma per field and update, true by unfolding the update once. -/

namespace Sys2Proof.Machine

/-! ## hostRead -/

section

variable (v : Word) (s : State)

@[simp] theorem hostRead_cfg : (hostRead v s).cfg = s.cfg := rfl
@[simp] theorem hostRead_rom : (hostRead v s).rom = s.rom := rfl
@[simp] theorem hostRead_desc : (hostRead v s).desc = s.desc := rfl
@[simp] theorem hostRead_work : (hostRead v s).work = s.work := rfl
@[simp] theorem hostRead_seqState : (hostRead v s).seqState = s.seqState := rfl
@[simp] theorem hostRead_errCode : (hostRead v s).errCode = s.errCode := rfl
@[simp] theorem hostRead_errIdx : (hostRead v s).errIdx = s.errIdx := rfl
@[simp] theorem hostRead_cmdErr : (hostRead v s).cmdErr = s.cmdErr := rfl
@[simp] theorem hostRead_pos : (hostRead v s).pos = s.pos := rfl
@[simp] theorem hostRead_outValid : (hostRead v s).outValid = s.outValid := rfl
@[simp] theorem hostRead_outOn : (hostRead v s).outOn = s.outOn := rfl
@[simp] theorem hostRead_outOff : (hostRead v s).outOff = s.outOff := rfl
@[simp] theorem hostRead_outLast : (hostRead v s).outLast = s.outLast := rfl
@[simp] theorem hostRead_latch : (hostRead v s).latch = s.latch := rfl
@[simp] theorem hostRead_romEn : (hostRead v s).romEn = s.romEn := rfl
@[simp] theorem hostRead_hrdata : (hostRead v s).hrdata = v := rfl
@[simp] theorem hostRead_romReads : (hostRead v s).romReads = s.romReads := rfl
@[simp] theorem hostRead_delivered : (hostRead v s).delivered = s.delivered := rfl
@[simp] theorem hostRead_deliveredBefore : (hostRead v s).deliveredBefore = s.deliveredBefore := rfl
@[simp] theorem hostRead_script : (hostRead v s).script = s.script := rfl

end

/-! ## writeDesc -/

section

variable (r : Record) (s : State)

@[simp] theorem writeDesc_cfg : (writeDesc r s).cfg = s.cfg := rfl
@[simp] theorem writeDesc_rom : (writeDesc r s).rom = s.rom := rfl
@[simp] theorem writeDesc_desc : (writeDesc r s).desc = r := rfl
@[simp] theorem writeDesc_work : (writeDesc r s).work = s.work := rfl
@[simp] theorem writeDesc_seqState : (writeDesc r s).seqState = s.seqState := rfl
@[simp] theorem writeDesc_errCode : (writeDesc r s).errCode = s.errCode := rfl
@[simp] theorem writeDesc_errIdx : (writeDesc r s).errIdx = s.errIdx := rfl
@[simp] theorem writeDesc_cmdErr : (writeDesc r s).cmdErr = s.cmdErr := rfl
@[simp] theorem writeDesc_pos : (writeDesc r s).pos = s.pos := rfl
@[simp] theorem writeDesc_outValid : (writeDesc r s).outValid = s.outValid := rfl
@[simp] theorem writeDesc_outOn : (writeDesc r s).outOn = s.outOn := rfl
@[simp] theorem writeDesc_outOff : (writeDesc r s).outOff = s.outOff := rfl
@[simp] theorem writeDesc_outLast : (writeDesc r s).outLast = s.outLast := rfl
@[simp] theorem writeDesc_latch : (writeDesc r s).latch = s.latch := rfl
@[simp] theorem writeDesc_romEn : (writeDesc r s).romEn = s.romEn := rfl
@[simp] theorem writeDesc_hrdata : (writeDesc r s).hrdata = s.hrdata := rfl
@[simp] theorem writeDesc_romReads : (writeDesc r s).romReads = s.romReads := rfl
@[simp] theorem writeDesc_delivered : (writeDesc r s).delivered = s.delivered := rfl
@[simp] theorem writeDesc_deliveredBefore : (writeDesc r s).deliveredBefore = s.deliveredBefore := rfl
@[simp] theorem writeDesc_script : (writeDesc r s).script = s.script := rfl

end

/-! ## commandError -/

section

variable (s : State)

@[simp] theorem commandError_cfg : (commandError s).cfg = s.cfg := rfl
@[simp] theorem commandError_rom : (commandError s).rom = s.rom := rfl
@[simp] theorem commandError_desc : (commandError s).desc = s.desc := rfl
@[simp] theorem commandError_work : (commandError s).work = s.work := rfl
@[simp] theorem commandError_seqState : (commandError s).seqState = s.seqState := rfl
@[simp] theorem commandError_errCode : (commandError s).errCode = s.errCode := rfl
@[simp] theorem commandError_errIdx : (commandError s).errIdx = s.errIdx := rfl
@[simp] theorem commandError_cmdErr : (commandError s).cmdErr = true := rfl
@[simp] theorem commandError_pos : (commandError s).pos = s.pos := rfl
@[simp] theorem commandError_outValid : (commandError s).outValid = s.outValid := rfl
@[simp] theorem commandError_outOn : (commandError s).outOn = s.outOn := rfl
@[simp] theorem commandError_outOff : (commandError s).outOff = s.outOff := rfl
@[simp] theorem commandError_outLast : (commandError s).outLast = s.outLast := rfl
@[simp] theorem commandError_latch : (commandError s).latch = s.latch := rfl
@[simp] theorem commandError_romEn : (commandError s).romEn = s.romEn := rfl
@[simp] theorem commandError_hrdata : (commandError s).hrdata = s.hrdata := rfl
@[simp] theorem commandError_romReads : (commandError s).romReads = s.romReads := rfl
@[simp] theorem commandError_delivered : (commandError s).delivered = s.delivered := rfl
@[simp] theorem commandError_deliveredBefore : (commandError s).deliveredBefore = s.deliveredBefore := rfl
@[simp] theorem commandError_script : (commandError s).script = s.script := rfl

end

/-! ## romDrive -/

section

variable (a : Nat) (s : State)

@[simp] theorem romDrive_cfg : (romDrive a s).cfg = s.cfg := rfl
@[simp] theorem romDrive_rom : (romDrive a s).rom = s.rom := rfl
@[simp] theorem romDrive_desc : (romDrive a s).desc = s.desc := rfl
@[simp] theorem romDrive_work : (romDrive a s).work = s.work := rfl
@[simp] theorem romDrive_seqState : (romDrive a s).seqState = s.seqState := rfl
@[simp] theorem romDrive_errCode : (romDrive a s).errCode = s.errCode := rfl
@[simp] theorem romDrive_errIdx : (romDrive a s).errIdx = s.errIdx := rfl
@[simp] theorem romDrive_cmdErr : (romDrive a s).cmdErr = s.cmdErr := rfl
@[simp] theorem romDrive_pos : (romDrive a s).pos = s.pos := rfl
@[simp] theorem romDrive_outValid : (romDrive a s).outValid = s.outValid := rfl
@[simp] theorem romDrive_outOn : (romDrive a s).outOn = s.outOn := rfl
@[simp] theorem romDrive_outOff : (romDrive a s).outOff = s.outOff := rfl
@[simp] theorem romDrive_outLast : (romDrive a s).outLast = s.outLast := rfl
@[simp] theorem romDrive_latch : (romDrive a s).latch = s.latch := rfl
@[simp] theorem romDrive_romEn : (romDrive a s).romEn = true := rfl
@[simp] theorem romDrive_hrdata : (romDrive a s).hrdata = s.hrdata := rfl
@[simp] theorem romDrive_romReads : (romDrive a s).romReads = s.romReads ++ [a] := rfl
@[simp] theorem romDrive_delivered : (romDrive a s).delivered = s.delivered := rfl
@[simp] theorem romDrive_deliveredBefore : (romDrive a s).deliveredBefore = s.deliveredBefore := rfl
@[simp] theorem romDrive_script : (romDrive a s).script = s.script := rfl

end

/-! ## romRelease -/

section

variable (s : State)

@[simp] theorem romRelease_cfg : (romRelease s).cfg = s.cfg := rfl
@[simp] theorem romRelease_rom : (romRelease s).rom = s.rom := rfl
@[simp] theorem romRelease_desc : (romRelease s).desc = s.desc := rfl
@[simp] theorem romRelease_work : (romRelease s).work = s.work := rfl
@[simp] theorem romRelease_seqState : (romRelease s).seqState = s.seqState := rfl
@[simp] theorem romRelease_errCode : (romRelease s).errCode = s.errCode := rfl
@[simp] theorem romRelease_errIdx : (romRelease s).errIdx = s.errIdx := rfl
@[simp] theorem romRelease_cmdErr : (romRelease s).cmdErr = s.cmdErr := rfl
@[simp] theorem romRelease_pos : (romRelease s).pos = s.pos := rfl
@[simp] theorem romRelease_outValid : (romRelease s).outValid = s.outValid := rfl
@[simp] theorem romRelease_outOn : (romRelease s).outOn = s.outOn := rfl
@[simp] theorem romRelease_outOff : (romRelease s).outOff = s.outOff := rfl
@[simp] theorem romRelease_outLast : (romRelease s).outLast = s.outLast := rfl
@[simp] theorem romRelease_latch : (romRelease s).latch = s.latch := rfl
@[simp] theorem romRelease_romEn : (romRelease s).romEn = false := rfl
@[simp] theorem romRelease_hrdata : (romRelease s).hrdata = s.hrdata := rfl
@[simp] theorem romRelease_romReads : (romRelease s).romReads = s.romReads := rfl
@[simp] theorem romRelease_delivered : (romRelease s).delivered = s.delivered := rfl
@[simp] theorem romRelease_deliveredBefore : (romRelease s).deliveredBefore = s.deliveredBefore := rfl
@[simp] theorem romRelease_script : (romRelease s).script = s.script := rfl

end

/-! ## latchIndex -/

section

variable (b : Byte) (s : State)

@[simp] theorem latchIndex_cfg : (latchIndex b s).cfg = s.cfg := rfl
@[simp] theorem latchIndex_rom : (latchIndex b s).rom = s.rom := rfl
@[simp] theorem latchIndex_desc : (latchIndex b s).desc = s.desc := rfl
@[simp] theorem latchIndex_work : (latchIndex b s).work = s.work := rfl
@[simp] theorem latchIndex_seqState : (latchIndex b s).seqState = s.seqState := rfl
@[simp] theorem latchIndex_errCode : (latchIndex b s).errCode = s.errCode := rfl
@[simp] theorem latchIndex_errIdx : (latchIndex b s).errIdx = s.errIdx := rfl
@[simp] theorem latchIndex_cmdErr : (latchIndex b s).cmdErr = s.cmdErr := rfl
@[simp] theorem latchIndex_pos : (latchIndex b s).pos = s.pos := rfl
@[simp] theorem latchIndex_outValid : (latchIndex b s).outValid = s.outValid := rfl
@[simp] theorem latchIndex_outOn : (latchIndex b s).outOn = s.outOn := rfl
@[simp] theorem latchIndex_outOff : (latchIndex b s).outOff = s.outOff := rfl
@[simp] theorem latchIndex_outLast : (latchIndex b s).outLast = s.outLast := rfl
@[simp] theorem latchIndex_latch : (latchIndex b s).latch = if s.cfg.latch then b else s.latch := rfl
@[simp] theorem latchIndex_romEn : (latchIndex b s).romEn = s.romEn := rfl
@[simp] theorem latchIndex_hrdata : (latchIndex b s).hrdata = s.hrdata := rfl
@[simp] theorem latchIndex_romReads : (latchIndex b s).romReads = s.romReads := rfl
@[simp] theorem latchIndex_delivered : (latchIndex b s).delivered = s.delivered := rfl
@[simp] theorem latchIndex_deliveredBefore : (latchIndex b s).deliveredBefore = s.deliveredBefore := rfl
@[simp] theorem latchIndex_script : (latchIndex b s).script = s.script := rfl

end

/-! ## raiseDataIntegrity -/

section

variable (code : ErrCode) (k : BitVec 8) (s : State)

@[simp] theorem raiseDataIntegrity_cfg : (raiseDataIntegrity code k s).cfg = s.cfg := rfl
@[simp] theorem raiseDataIntegrity_rom : (raiseDataIntegrity code k s).rom = s.rom := rfl
@[simp] theorem raiseDataIntegrity_desc : (raiseDataIntegrity code k s).desc = s.desc := rfl
@[simp] theorem raiseDataIntegrity_work : (raiseDataIntegrity code k s).work = s.work := rfl
@[simp] theorem raiseDataIntegrity_seqState : (raiseDataIntegrity code k s).seqState = .error := rfl
@[simp] theorem raiseDataIntegrity_errCode : (raiseDataIntegrity code k s).errCode = code := rfl
@[simp] theorem raiseDataIntegrity_errIdx : (raiseDataIntegrity code k s).errIdx = k := rfl
@[simp] theorem raiseDataIntegrity_cmdErr : (raiseDataIntegrity code k s).cmdErr = s.cmdErr := rfl
@[simp] theorem raiseDataIntegrity_pos : (raiseDataIntegrity code k s).pos = s.pos := rfl
@[simp] theorem raiseDataIntegrity_outValid : (raiseDataIntegrity code k s).outValid = s.outValid := rfl
@[simp] theorem raiseDataIntegrity_outOn : (raiseDataIntegrity code k s).outOn = s.outOn := rfl
@[simp] theorem raiseDataIntegrity_outOff : (raiseDataIntegrity code k s).outOff = s.outOff := rfl
@[simp] theorem raiseDataIntegrity_outLast : (raiseDataIntegrity code k s).outLast = s.outLast := rfl
@[simp] theorem raiseDataIntegrity_latch : (raiseDataIntegrity code k s).latch = s.latch := rfl
@[simp] theorem raiseDataIntegrity_romEn : (raiseDataIntegrity code k s).romEn = s.romEn := rfl
@[simp] theorem raiseDataIntegrity_hrdata : (raiseDataIntegrity code k s).hrdata = s.hrdata := rfl
@[simp] theorem raiseDataIntegrity_romReads : (raiseDataIntegrity code k s).romReads = s.romReads := rfl
@[simp] theorem raiseDataIntegrity_delivered : (raiseDataIntegrity code k s).delivered = s.delivered := rfl
@[simp] theorem raiseDataIntegrity_deliveredBefore : (raiseDataIntegrity code k s).deliveredBefore = s.deliveredBefore := rfl
@[simp] theorem raiseDataIntegrity_script : (raiseDataIntegrity code k s).script = s.script := rfl

end

/-! ## clearError -/

section

variable (s : State)

@[simp] theorem clearError_cfg : (clearError s).cfg = s.cfg := rfl
@[simp] theorem clearError_rom : (clearError s).rom = s.rom := rfl
@[simp] theorem clearError_desc : (clearError s).desc = s.desc := rfl
@[simp] theorem clearError_work : (clearError s).work = s.work := rfl
@[simp] theorem clearError_seqState : (clearError s).seqState = s.seqState := rfl
@[simp] theorem clearError_errCode : (clearError s).errCode = .none := rfl
@[simp] theorem clearError_errIdx : (clearError s).errIdx = 0 := rfl
@[simp] theorem clearError_cmdErr : (clearError s).cmdErr = s.cmdErr := rfl
@[simp] theorem clearError_pos : (clearError s).pos = s.pos := rfl
@[simp] theorem clearError_outValid : (clearError s).outValid = s.outValid := rfl
@[simp] theorem clearError_outOn : (clearError s).outOn = s.outOn := rfl
@[simp] theorem clearError_outOff : (clearError s).outOff = s.outOff := rfl
@[simp] theorem clearError_outLast : (clearError s).outLast = s.outLast := rfl
@[simp] theorem clearError_latch : (clearError s).latch = s.latch := rfl
@[simp] theorem clearError_romEn : (clearError s).romEn = s.romEn := rfl
@[simp] theorem clearError_hrdata : (clearError s).hrdata = s.hrdata := rfl
@[simp] theorem clearError_romReads : (clearError s).romReads = s.romReads := rfl
@[simp] theorem clearError_delivered : (clearError s).delivered = s.delivered := rfl
@[simp] theorem clearError_deliveredBefore : (clearError s).deliveredBefore = s.deliveredBefore := rfl
@[simp] theorem clearError_script : (clearError s).script = s.script := rfl

end

/-! ## startRun -/

section

variable (s : State)

@[simp] theorem startRun_cfg : (startRun s).cfg = s.cfg := rfl
@[simp] theorem startRun_rom : (startRun s).rom = s.rom := rfl
@[simp] theorem startRun_desc : (startRun s).desc = s.desc := rfl
@[simp] theorem startRun_work : (startRun s).work = s.desc := rfl
@[simp] theorem startRun_seqState : (startRun s).seqState = .check := rfl
@[simp] theorem startRun_errCode : (startRun s).errCode = .none := rfl
@[simp] theorem startRun_errIdx : (startRun s).errIdx = 0 := rfl
@[simp] theorem startRun_cmdErr : (startRun s).cmdErr = s.cmdErr := rfl
@[simp] theorem startRun_pos : (startRun s).pos = 0 := rfl
@[simp] theorem startRun_outValid : (startRun s).outValid = false := rfl
@[simp] theorem startRun_outOn : (startRun s).outOn = s.outOn := rfl
@[simp] theorem startRun_outOff : (startRun s).outOff = s.outOff := rfl
@[simp] theorem startRun_outLast : (startRun s).outLast = s.outLast := rfl
@[simp] theorem startRun_latch : (startRun s).latch = s.latch := rfl
@[simp] theorem startRun_romEn : (startRun s).romEn = s.romEn := rfl
@[simp] theorem startRun_hrdata : (startRun s).hrdata = s.hrdata := rfl
@[simp] theorem startRun_romReads : (startRun s).romReads = [] := rfl
@[simp] theorem startRun_delivered : (startRun s).delivered = [] := rfl
@[simp] theorem startRun_deliveredBefore : (startRun s).deliveredBefore = s.deliveredBefore ++ s.delivered := rfl
@[simp] theorem startRun_script : (startRun s).script = s.script := rfl

end

/-! ## abortRun -/

section

variable (s : State)

@[simp] theorem abortRun_cfg : (abortRun s).cfg = s.cfg := rfl
@[simp] theorem abortRun_rom : (abortRun s).rom = s.rom := rfl
@[simp] theorem abortRun_desc : (abortRun s).desc = s.desc := rfl
@[simp] theorem abortRun_work : (abortRun s).work = s.work := rfl
@[simp] theorem abortRun_seqState : (abortRun s).seqState = .idle := rfl
@[simp] theorem abortRun_errCode : (abortRun s).errCode = .none := rfl
@[simp] theorem abortRun_errIdx : (abortRun s).errIdx = 0 := rfl
@[simp] theorem abortRun_cmdErr : (abortRun s).cmdErr = false := rfl
@[simp] theorem abortRun_pos : (abortRun s).pos = 0 := rfl
@[simp] theorem abortRun_outValid : (abortRun s).outValid = false := rfl
@[simp] theorem abortRun_outOn : (abortRun s).outOn = s.outOn := rfl
@[simp] theorem abortRun_outOff : (abortRun s).outOff = s.outOff := rfl
@[simp] theorem abortRun_outLast : (abortRun s).outLast = s.outLast := rfl
@[simp] theorem abortRun_latch : (abortRun s).latch = s.latch := rfl
@[simp] theorem abortRun_romEn : (abortRun s).romEn = s.romEn := rfl
@[simp] theorem abortRun_hrdata : (abortRun s).hrdata = s.hrdata := rfl
@[simp] theorem abortRun_romReads : (abortRun s).romReads = s.romReads := rfl
@[simp] theorem abortRun_delivered : (abortRun s).delivered = s.delivered := rfl
@[simp] theorem abortRun_deliveredBefore : (abortRun s).deliveredBefore = s.deliveredBefore := rfl
@[simp] theorem abortRun_script : (abortRun s).script = s.script := rfl

end

/-! ## advance -/

section

variable (s : State)

@[simp] theorem advance_cfg : (advance s).cfg = s.cfg := rfl
@[simp] theorem advance_rom : (advance s).rom = s.rom := rfl
@[simp] theorem advance_desc : (advance s).desc = s.desc := rfl
@[simp] theorem advance_work : (advance s).work = s.work := rfl
@[simp] theorem advance_seqState : (advance s).seqState = s.seqState := rfl
@[simp] theorem advance_errCode : (advance s).errCode = s.errCode := rfl
@[simp] theorem advance_errIdx : (advance s).errIdx = s.errIdx := rfl
@[simp] theorem advance_cmdErr : (advance s).cmdErr = s.cmdErr := rfl
@[simp] theorem advance_pos : (advance s).pos = s.pos + 1 := rfl
@[simp] theorem advance_outValid : (advance s).outValid = s.outValid := rfl
@[simp] theorem advance_outOn : (advance s).outOn = s.outOn := rfl
@[simp] theorem advance_outOff : (advance s).outOff = s.outOff := rfl
@[simp] theorem advance_outLast : (advance s).outLast = s.outLast := rfl
@[simp] theorem advance_latch : (advance s).latch = s.latch := rfl
@[simp] theorem advance_romEn : (advance s).romEn = s.romEn := rfl
@[simp] theorem advance_hrdata : (advance s).hrdata = s.hrdata := rfl
@[simp] theorem advance_romReads : (advance s).romReads = s.romReads := rfl
@[simp] theorem advance_delivered : (advance s).delivered = s.delivered := rfl
@[simp] theorem advance_deliveredBefore : (advance s).deliveredBefore = s.deliveredBefore := rfl
@[simp] theorem advance_script : (advance s).script = s.script := rfl

end

/-! ## endCheck -/

section

variable (s : State)

@[simp] theorem endCheck_cfg : (endCheck s).cfg = s.cfg := rfl
@[simp] theorem endCheck_rom : (endCheck s).rom = s.rom := rfl
@[simp] theorem endCheck_desc : (endCheck s).desc = s.desc := rfl
@[simp] theorem endCheck_work : (endCheck s).work = s.work := rfl
@[simp] theorem endCheck_seqState : (endCheck s).seqState = .emit := rfl
@[simp] theorem endCheck_errCode : (endCheck s).errCode = s.errCode := rfl
@[simp] theorem endCheck_errIdx : (endCheck s).errIdx = s.errIdx := rfl
@[simp] theorem endCheck_cmdErr : (endCheck s).cmdErr = s.cmdErr := rfl
@[simp] theorem endCheck_pos : (endCheck s).pos = 0 := rfl
@[simp] theorem endCheck_outValid : (endCheck s).outValid = s.outValid := rfl
@[simp] theorem endCheck_outOn : (endCheck s).outOn = s.outOn := rfl
@[simp] theorem endCheck_outOff : (endCheck s).outOff = s.outOff := rfl
@[simp] theorem endCheck_outLast : (endCheck s).outLast = s.outLast := rfl
@[simp] theorem endCheck_latch : (endCheck s).latch = s.latch := rfl
@[simp] theorem endCheck_romEn : (endCheck s).romEn = s.romEn := rfl
@[simp] theorem endCheck_hrdata : (endCheck s).hrdata = s.hrdata := rfl
@[simp] theorem endCheck_romReads : (endCheck s).romReads = s.romReads := rfl
@[simp] theorem endCheck_delivered : (endCheck s).delivered = s.delivered := rfl
@[simp] theorem endCheck_deliveredBefore : (endCheck s).deliveredBefore = s.deliveredBefore := rfl
@[simp] theorem endCheck_script : (endCheck s).script = s.script := rfl

end

/-! ## endEmit -/

section

variable (s : State)

@[simp] theorem endEmit_cfg : (endEmit s).cfg = s.cfg := rfl
@[simp] theorem endEmit_rom : (endEmit s).rom = s.rom := rfl
@[simp] theorem endEmit_desc : (endEmit s).desc = s.desc := rfl
@[simp] theorem endEmit_work : (endEmit s).work = s.work := rfl
@[simp] theorem endEmit_seqState : (endEmit s).seqState = .done := rfl
@[simp] theorem endEmit_errCode : (endEmit s).errCode = s.errCode := rfl
@[simp] theorem endEmit_errIdx : (endEmit s).errIdx = s.errIdx := rfl
@[simp] theorem endEmit_cmdErr : (endEmit s).cmdErr = s.cmdErr := rfl
@[simp] theorem endEmit_pos : (endEmit s).pos = s.pos := rfl
@[simp] theorem endEmit_outValid : (endEmit s).outValid = s.outValid := rfl
@[simp] theorem endEmit_outOn : (endEmit s).outOn = s.outOn := rfl
@[simp] theorem endEmit_outOff : (endEmit s).outOff = s.outOff := rfl
@[simp] theorem endEmit_outLast : (endEmit s).outLast = s.outLast := rfl
@[simp] theorem endEmit_latch : (endEmit s).latch = s.latch := rfl
@[simp] theorem endEmit_romEn : (endEmit s).romEn = s.romEn := rfl
@[simp] theorem endEmit_hrdata : (endEmit s).hrdata = s.hrdata := rfl
@[simp] theorem endEmit_romReads : (endEmit s).romReads = s.romReads := rfl
@[simp] theorem endEmit_delivered : (endEmit s).delivered = s.delivered := rfl
@[simp] theorem endEmit_deliveredBefore : (endEmit s).deliveredBefore = s.deliveredBefore := rfl
@[simp] theorem endEmit_script : (endEmit s).script = s.script := rfl

end

/-! ## emitPair -/

section

variable (on off : Half) (last : Bool) (s : State)

@[simp] theorem emitPair_cfg : (emitPair on off last s).cfg = s.cfg := rfl
@[simp] theorem emitPair_rom : (emitPair on off last s).rom = s.rom := rfl
@[simp] theorem emitPair_desc : (emitPair on off last s).desc = s.desc := rfl
@[simp] theorem emitPair_work : (emitPair on off last s).work = s.work := rfl
@[simp] theorem emitPair_seqState : (emitPair on off last s).seqState = s.seqState := rfl
@[simp] theorem emitPair_errCode : (emitPair on off last s).errCode = s.errCode := rfl
@[simp] theorem emitPair_errIdx : (emitPair on off last s).errIdx = s.errIdx := rfl
@[simp] theorem emitPair_cmdErr : (emitPair on off last s).cmdErr = s.cmdErr := rfl
@[simp] theorem emitPair_pos : (emitPair on off last s).pos = s.pos := rfl
@[simp] theorem emitPair_outValid : (emitPair on off last s).outValid = true := rfl
@[simp] theorem emitPair_outOn : (emitPair on off last s).outOn = on := rfl
@[simp] theorem emitPair_outOff : (emitPair on off last s).outOff = off := rfl
@[simp] theorem emitPair_outLast : (emitPair on off last s).outLast = last := rfl
@[simp] theorem emitPair_latch : (emitPair on off last s).latch = s.latch := rfl
@[simp] theorem emitPair_romEn : (emitPair on off last s).romEn = s.romEn := rfl
@[simp] theorem emitPair_hrdata : (emitPair on off last s).hrdata = s.hrdata := rfl
@[simp] theorem emitPair_romReads : (emitPair on off last s).romReads = s.romReads := rfl
@[simp] theorem emitPair_delivered : (emitPair on off last s).delivered = s.delivered := rfl
@[simp] theorem emitPair_deliveredBefore : (emitPair on off last s).deliveredBefore = s.deliveredBefore := rfl
@[simp] theorem emitPair_script : (emitPair on off last s).script = s.script := rfl

end

/-! ## acceptPair -/

section

variable (s : State)

@[simp] theorem acceptPair_cfg : (acceptPair s).cfg = s.cfg := rfl
@[simp] theorem acceptPair_rom : (acceptPair s).rom = s.rom := rfl
@[simp] theorem acceptPair_desc : (acceptPair s).desc = s.desc := rfl
@[simp] theorem acceptPair_work : (acceptPair s).work = s.work := rfl
@[simp] theorem acceptPair_seqState : (acceptPair s).seqState = s.seqState := rfl
@[simp] theorem acceptPair_errCode : (acceptPair s).errCode = s.errCode := rfl
@[simp] theorem acceptPair_errIdx : (acceptPair s).errIdx = s.errIdx := rfl
@[simp] theorem acceptPair_cmdErr : (acceptPair s).cmdErr = s.cmdErr := rfl
@[simp] theorem acceptPair_pos : (acceptPair s).pos = s.pos + 1 := rfl
@[simp] theorem acceptPair_outValid : (acceptPair s).outValid = false := rfl
@[simp] theorem acceptPair_outOn : (acceptPair s).outOn = s.outOn := rfl
@[simp] theorem acceptPair_outOff : (acceptPair s).outOff = s.outOff := rfl
@[simp] theorem acceptPair_outLast : (acceptPair s).outLast = s.outLast := rfl
@[simp] theorem acceptPair_latch : (acceptPair s).latch = s.latch := rfl
@[simp] theorem acceptPair_romEn : (acceptPair s).romEn = s.romEn := rfl
@[simp] theorem acceptPair_hrdata : (acceptPair s).hrdata = s.hrdata := rfl
@[simp] theorem acceptPair_romReads : (acceptPair s).romReads = s.romReads := rfl
@[simp] theorem acceptPair_delivered : (acceptPair s).delivered = s.delivered ++ [presented s] := rfl
@[simp] theorem acceptPair_deliveredBefore : (acceptPair s).deliveredBefore = s.deliveredBefore := rfl
@[simp] theorem acceptPair_script : (acceptPair s).script = s.script := rfl

end

/-! ## applyReset -/

section

variable (s : State)

@[simp] theorem applyReset_cfg : (applyReset s).cfg = s.cfg := rfl
@[simp] theorem applyReset_rom : (applyReset s).rom = s.rom := rfl
@[simp] theorem applyReset_desc : (applyReset s).desc = Record.zero := rfl
@[simp] theorem applyReset_work : (applyReset s).work = Record.zero := rfl
@[simp] theorem applyReset_seqState : (applyReset s).seqState = .idle := rfl
@[simp] theorem applyReset_errCode : (applyReset s).errCode = .none := rfl
@[simp] theorem applyReset_errIdx : (applyReset s).errIdx = 0 := rfl
@[simp] theorem applyReset_cmdErr : (applyReset s).cmdErr = false := rfl
@[simp] theorem applyReset_pos : (applyReset s).pos = 0 := rfl
@[simp] theorem applyReset_outValid : (applyReset s).outValid = false := rfl
@[simp] theorem applyReset_outOn : (applyReset s).outOn = 0 := rfl
@[simp] theorem applyReset_outOff : (applyReset s).outOff = 0 := rfl
@[simp] theorem applyReset_outLast : (applyReset s).outLast = false := rfl
@[simp] theorem applyReset_latch : (applyReset s).latch = 0 := rfl
@[simp] theorem applyReset_romEn : (applyReset s).romEn = false := rfl
@[simp] theorem applyReset_hrdata : (applyReset s).hrdata = 0 := rfl
@[simp] theorem applyReset_romReads : (applyReset s).romReads = [] := rfl
@[simp] theorem applyReset_delivered : (applyReset s).delivered = [] := rfl
@[simp] theorem applyReset_deliveredBefore : (applyReset s).deliveredBefore = s.deliveredBefore ++ s.delivered := rfl
@[simp] theorem applyReset_script : (applyReset s).script = s.script := rfl

end

end Sys2Proof.Machine
end

