-- ==== Sys2Proof/Laws/Ops.lean ====
section
/-! SUPPORT. One lemma for each shared operation: the ROM read, the tests of a position, the loading of an entry. -/

namespace Sys2Proof.Machine

/-! ## Enabledness -/

theorem canCheck_iff (s : State) : canCheck s = true ↔ s.seqState = .check ∧ s.pos.toNat < s.work.len.toNat := by
  simp [canCheck]

theorem canLoad_iff (s : State) :
    canLoad s = true ↔ s.seqState = .emit ∧ s.outValid = false ∧ s.pos.toNat < s.work.len.toNat := by
  simp [canLoad, and_assoc]

theorem canCheck_not_canLoad {s : State} (h : canCheck s = true) : canLoad s = false := by
  rw [canCheck_iff] at h
  simp [canLoad, h.1]

theorem canLoad_not_canCheck {s : State} (h : canLoad s = true) : canCheck s = false := by
  rw [canLoad_iff] at h
  simp [canCheck, h.1]

theorem busy_iff (s : State) : busy s = true ↔ s.seqState = .check ∨ s.seqState = .emit := by
  unfold busy; cases s.seqState <;> simp

theorem busy_false_iff (s : State) :
    busy s = false ↔ s.seqState = .idle ∨ s.seqState = .done ∨ s.seqState = .error := by
  unfold busy; cases s.seqState <;> simp

/-! ## The ROM read -/

/-- Below `ROM_SIZE` the byte is read and its address recorded. -/
theorem withRomByte_inside {a : Nat} {s : State} (h : a < s.cfg.romSize)
    (k : Byte → State → Host.Outcome State Fault Refusal) :
    withRomByte a s k = k (s.rom.read a) (romRelease (romDrive a s)) := by
  simp [withRomByte, h]

/-- A read that goes on was below `ROM_SIZE`. -/
theorem withRomByte_next {a : Nat} {s t : State} {k : Byte → State → Host.Outcome State Fault Refusal}
    (h : withRomByte a s k = .next t) :
    a < s.cfg.romSize ∧ k (s.rom.read a) (romRelease (romDrive a s)) = .next t := by
  unfold withRomByte at h
  split at h
  · next hr => exact ⟨hr, h⟩
  · exact absurd h (by simp)

/-- A state after the reads of the addresses `l`. -/
theorem romReads_record (s : State) (a : Nat) :
    romRelease (romDrive a s) = { s with romEn := false, romReads := s.romReads ++ [a] } := rfl

/-! ## The tests of a position -/

theorem esz_pos (c : Config) : 2 ≤ esz c := by unfold esz; split <;> omega

theorem checkIndex_ok_iff (c : Config) (r : Record) (k : BitVec 8) :
    checkIndex c r k = .ok ↔ k.toNat < r.dictN.toNat ∧ entryAddr c r k + esz c ≤ c.romSize := by
  have := esz_pos c
  unfold checkIndex
  split
  · simp; omega
  · split
    · simp; omega
    · simp; omega

theorem checkIndex_indexRange {c : Config} {r : Record} {k : BitVec 8} (h : r.dictN.toNat ≤ k.toNat) :
    checkIndex c r k = .err .indexRange k := by
  simp [checkIndex, h]

theorem checkIndex_romRange {c : Config} {r : Record} {k : BitVec 8} (h : k.toNat < r.dictN.toNat)
    (h' : c.romSize < entryAddr c r k + esz c) : checkIndex c r k = .err .romRange k := by
  have := esz_pos c
  unfold checkIndex
  rw [if_neg (by omega), if_pos (by omega)]

/-- An error of the tests after the index is INDEX_RANGE or ROM_RANGE with that index. -/
theorem checkIndex_err {c : Config} {r : Record} {k k' : BitVec 8} {code : ErrCode}
    (h : checkIndex c r k = .err code k') : code ≠ .none ∧ k' = k := by
  unfold checkIndex at h
  split at h
  · cases h; simp
  · split at h
    · cases h; simp
    · cases h

theorem checkPos_ok_iff (c : Config) (rom : Memory) (r : Record) (i : Nat) :
    checkPos c rom r i = .ok ↔
      seqAddr r i < c.romSize ∧ (idx rom r i).toNat < r.dictN.toNat ∧
        entryAddr c r (idx rom r i) + esz c ≤ c.romSize := by
  unfold checkPos
  split
  · simp; omega
  · rw [checkIndex_ok_iff]; simp; omega

theorem checkPos_err {c : Config} {rom : Memory} {r : Record} {i : Nat} {k : BitVec 8} {code : ErrCode}
    (h : checkPos c rom r i = .err code k) : code ≠ .none := by
  unfold checkPos at h
  split at h
  · cases h; simp
  · exact (checkIndex_err h).1

/-! ## The loading of an entry -/

/-- EMIT_LOAD after the index, when the entry is in the ROM: the pair is presented and its bytes have been read. -/
theorem loadEntry_inside {k : BitVec 8} {s : State} (hl : canLoad s = true)
    (h : entryAddr s.cfg s.work k + esz s.cfg ≤ s.cfg.romSize) :
    loadEntry k s = .next { s with
      outOn := (entry s.cfg s.rom s.work k).1, outOff := (entry s.cfg s.rom s.work k).2
      outLast := decide (s.pos.toNat + 1 = s.work.len.toNat), outValid := true
      romReads := s.romReads ++ (List.range (esz s.cfg)).map (entryAddr s.cfg s.work k + ·)
      romEn := false } := by
  have hl' := (canLoad_iff s).mp hl
  unfold loadEntry
  generalize hE : entryAddr s.cfg s.work k = e at h
  have hpair : entry s.cfg s.rom s.work k = match s.cfg.tw with
      | .tw8 => ((s.rom.read e).setWidth 16, (s.rom.read (e + 1)).setWidth 16)
      | .tw16 => (le16 (s.rom.read e) (s.rom.read (e + 1)), le16 (s.rom.read (e + 2)) (s.rom.read (e + 3))) := by
    cases h' : s.cfg.tw <;> simp [entry, hE, h']
  cases htw : s.cfg.tw with
  | tw8 =>
    have hz : esz s.cfg = 2 := by simp [esz, htw]
    rw [hz] at h
    simp only [htw] at hpair
    dsimp only
    rw [withRomByte_inside (by omega), withRomByte_inside (by simp; omega)]
    simp only [execEntryTw8, canLoad, isLast, emitPair, romRelease, romDrive, hl'.1, hl'.2.1, hl'.2.2, hpair, hz]
    simp [List.range_succ]
  | tw16 =>
    have hz : esz s.cfg = 4 := by simp [esz, htw]
    rw [hz] at h
    simp only [htw] at hpair
    dsimp only
    rw [withRomByte_inside (by omega), withRomByte_inside (by simp; omega), withRomByte_inside (by simp; omega),
      withRomByte_inside (by simp; omega)]
    simp only [execEntryTw16, canLoad, isLast, emitPair, romRelease, romDrive, hl'.1, hl'.2.1, hl'.2.2, hpair, hz]
    simp [List.range_succ]

/-- A load that goes on had its whole entry in the ROM. -/
theorem loadEntry_next {k : BitVec 8} {s t : State} (h : loadEntry k s = .next t) :
    entryAddr s.cfg s.work k + esz s.cfg ≤ s.cfg.romSize := by
  unfold loadEntry at h
  cases htw : s.cfg.tw with
  | tw8 =>
    simp only [htw] at h
    obtain ⟨-, h⟩ := withRomByte_next h
    obtain ⟨h1, -⟩ := withRomByte_next h
    simp [esz, htw] at h1 ⊢; omega
  | tw16 =>
    simp only [htw] at h
    obtain ⟨-, h⟩ := withRomByte_next h
    obtain ⟨-, h⟩ := withRomByte_next h
    obtain ⟨-, h⟩ := withRomByte_next h
    obtain ⟨h1, -⟩ := withRomByte_next h
    simp [esz, htw] at h1 ⊢; omega

end Sys2Proof.Machine
end

