-- ==== Sys2Proof/Laws/PerInstr.lean ====
section
/-! SUPPORT. Statements about every instruction as syntax, one lemma per constructor (LAWS.json). EncodedSize: how many bytes an
instruction's encoding has, by its format (30_encoding.md R80 to R87; the byte form of a host access is the model's,
notes/assumptions/7.md). -/

namespace Sys2Proof.Laws.EncodedSize

open Sys2Proof.Safety

/-- The bytes of a format: a host read is its access byte, a host write has the four bytes of `hwdata` too. -/
def size (i : Instr) : Nat :=
  match formatOf i with
  | .hostacc7 => if isHostRead i then 1 else 5
  | .cmd32 => 4
  | .idxn8 _ => 1
  | .idxb8 => 1
  | .ent16 => 2
  | .ent32 => 4

/-- The encoding has the bytes of its format. -/
def Statement (i : Instr) : Prop := (encode i).length = size i

theorem nop : Statement (.nop) := rfl

theorem start : Statement (.start) := rfl

theorem abort : Statement (.abort) := rfl

theorem cmdReserved (op : BitVec 8) : Statement (.cmdReserved op) := rfl

theorem wrCmd (hwdata : Word) : Statement (.wrCmd hwdata) := rfl

theorem wrStatus (hwdata : Word) : Statement (.wrStatus hwdata) := rfl

theorem wrPos (hwdata : Word) : Statement (.wrPos hwdata) := rfl

theorem wrMode (hwdata : Word) : Statement (.wrMode hwdata) := rfl

theorem wrDictBase (hwdata : Word) : Statement (.wrDictBase hwdata) := rfl

theorem wrDictN (hwdata : Word) : Statement (.wrDictN hwdata) := rfl

theorem wrSeqBase (hwdata : Word) : Statement (.wrSeqBase hwdata) := rfl

theorem wrLen (hwdata : Word) : Statement (.wrLen hwdata) := rfl

theorem wrCarrier (hwdata : Word) : Statement (.wrCarrier hwdata) := rfl

theorem wrCfg (hwdata : Word) : Statement (.wrCfg hwdata) := rfl

theorem rdCmd : Statement (.rdCmd) := rfl

theorem rdStatus : Statement (.rdStatus) := rfl

theorem rdPos : Statement (.rdPos) := rfl

theorem rdMode : Statement (.rdMode) := rfl

theorem rdDictBase : Statement (.rdDictBase) := rfl

theorem rdDictN : Statement (.rdDictN) := rfl

theorem rdSeqBase : Statement (.rdSeqBase) := rfl

theorem rdLen : Statement (.rdLen) := rfl

theorem rdCarrier : Statement (.rdCarrier) := rfl

theorem rdCfg : Statement (.rdCfg) := rfl

theorem wrUnmapped28 (hwdata : Word) : Statement (.wrUnmapped28 hwdata) := rfl

theorem rdUnmapped28 : Statement (.rdUnmapped28) := rfl

theorem wrUnmapped2C (hwdata : Word) : Statement (.wrUnmapped2C hwdata) := rfl

theorem rdUnmapped2C : Statement (.rdUnmapped2C) := rfl

theorem wrUnmapped30 (hwdata : Word) : Statement (.wrUnmapped30 hwdata) := rfl

theorem rdUnmapped30 : Statement (.rdUnmapped30) := rfl

theorem wrUnmapped34 (hwdata : Word) : Statement (.wrUnmapped34 hwdata) := rfl

theorem rdUnmapped34 : Statement (.rdUnmapped34) := rfl

theorem wrUnmapped38 (hwdata : Word) : Statement (.wrUnmapped38 hwdata) := rfl

theorem rdUnmapped38 : Statement (.rdUnmapped38) := rfl

theorem wrUnmapped3C (hwdata : Word) : Statement (.wrUnmapped3C hwdata) := rfl

theorem rdUnmapped3C : Statement (.rdUnmapped3C) := rfl

theorem idxNibbleHi (hi : BitVec 4) (lo : BitVec 4) : Statement (.idxNibbleHi hi lo) := rfl

theorem idxNibbleLo (hi : BitVec 4) (lo : BitVec 4) : Statement (.idxNibbleLo hi lo) := rfl

theorem idxByte (index : BitVec 8) : Statement (.idxByte index) := rfl

theorem entryTw8 (on : BitVec 8) (off : BitVec 8) : Statement (.entryTw8 on off) := rfl

theorem entryTw16 (on : BitVec 16) (off : BitVec 16) : Statement (.entryTw16 on off) := rfl

end Sys2Proof.Laws.EncodedSize
end

