-- ==== Sys2Proof/Laws/Step.lean ====
section
/-! SUPPORT. What a step can do, said once: by the head of the schedule, then for a host access, for the sequencer's turn and for
the consumer's. -/

namespace Sys2Proof.Machine

open Sys2Proof.Safety

/-! ## The head of the schedule -/

theorem step_act {s : State} {e : Event} {rest : List Line} (h : s.script = .act e :: rest) :
    step s = act e { s with script := rest } := by
  simp [step, h]

theorem step_expand {s : State} {m : Macro} {rest : List Line} (h : s.script = .expand m :: rest) :
    step s = .next { s with script := expandMacro m s ++ rest } := by
  simp [step, h]

theorem step_nil {s : State} (h : s.script = []) : step s = act .seq s := by
  simp [step, h]

theorem step_next {s : State} {e : Event} (h : Next s e) : step s = act e { s with script := s.script.tail } := by
  unfold Next at h
  cases hs : s.script with
  | nil => simp [hs] at h
  | cons l rest =>
    simp only [hs, List.head?_cons, Option.some.injEq] at h
    subst h
    rw [step_act hs]; rfl

/-- A step is the event at the head, the sequencer's turn on an empty schedule, or a macro replaced. -/
theorem step_cases {s t : State} (h : step s = .next t) :
    (∃ e, Next s e ∧ act e { s with script := s.script.tail } = .next t) ∨
    (s.script = [] ∧ act .seq s = .next t) ∨
    (∃ m rest, s.script = .expand m :: rest ∧ t = { s with script := expandMacro m s ++ rest }) := by
  cases hs : s.script with
  | nil => exact .inr (.inl ⟨rfl, by rw [← step_nil hs]; exact h⟩)
  | cons l rest =>
    cases l with
    | act e =>
      refine .inl ⟨e, by simp [Next, hs], ?_⟩
      rw [step_act hs] at h
      simpa [hs] using h
    | expand m =>
      rw [step_expand hs] at h
      cases h
      exact .inr (.inr ⟨m, rest, rfl, rfl⟩)

theorem coreRun_next (M : Host.Core) {n : Nat} {s s' : M.State} (h : M.step s = .next s') :
    M.run (n + 1) s = M.run n s' := by
  simp [Host.Core.run, h]

theorem coreRun_inv (M : Host.Core) {n : Nat} {s t : M.State} (h : M.run (n + 1) s = .next t) :
    ∃ u, M.step s = .next u ∧ M.run n u = .next t := by
  rw [Host.Core.run] at h
  split at h
  · next u hu => exact ⟨u, hu, h⟩
  · cases h
  · cases h

/-- No steps. -/
theorem run_zero (s : State) : core.run 0 s = .next s := rfl

/-- A step, then the rest of the run. -/
theorem run_step {n : Nat} {s s' : State} (h : step s = .next s') : core.run (n + 1) s = core.run n s' :=
  coreRun_next core h

/-- A run that goes on went on at its first step. -/
theorem run_inv {n : Nat} {s t : State} (h : core.run (n + 1) s = .next t) :
    ∃ u, step s = .next u ∧ core.run n u = .next t :=
  coreRun_inv core h

/-- A run in two parts. -/
theorem run_add {m n : Nat} {s t : State} (h : core.run m s = .next t) : core.run (m + n) s = core.run n t := by
  induction m generalizing s with
  | zero => rw [run_zero] at h; cases h; simp
  | succ m ih =>
    obtain ⟨u, hu, h⟩ := run_inv h
    rw [show m + 1 + n = (m + n) + 1 by omega, run_step hu, ih h]

/-- What a step keeps, every run keeps. -/
theorem run_keeps {P : State → Prop} (hP : ∀ s t, P s → step s = .next t → P t) {n : Nat} {s t : State}
    (hs : P s) (h : core.run n s = .next t) : P t := by
  induction n generalizing s with
  | zero => rw [run_zero] at h; cases h; exact hs
  | succ n ih =>
    obtain ⟨u, hu, h⟩ := run_inv h
    exact ih (hP s u hs hu) h

/-! ## A host access -/

/-- The four commands by the opcode of a write to CMD (R82, R83). -/
theorem execWrCmd_cases (d : Word) (s : State) :
    (d.toNat % 256 = 0 → exec (.wrCmd d) s = .next s) ∧
    (d.toNat % 256 = 1 → exec (.wrCmd d) s = if busy s then .next (commandError s) else .next (startRun s)) ∧
    (d.toNat % 256 = 2 → exec (.wrCmd d) s = .next (abortRun s)) ∧
    (3 ≤ d.toNat % 256 → exec (.wrCmd d) s = .next (commandError s)) := by
  have key : ∀ op : BitVec 8, d.extractLsb' 0 8 = op ↔ d.toNat % 256 = op.toNat := by
    intro op
    rw [← BitVec.toNat_inj, opcode_toNat]
  have k0 := key 0x00#8
  have k1 := key 0x01#8
  have k2 := key 0x02#8
  simp only [BitVec.toNat_ofNat] at k0 k1 k2
  refine ⟨fun h => ?_, fun h => ?_, fun h => ?_, fun h => ?_⟩ <;>
    simp [exec, execWrCmd, decodeCmd, k0, k1, k2, h, execNop, execStart, execAbort]
  rw [if_neg (by omega), if_neg (by omega), if_neg (by omega)]
  rfl

/-- A write to CMD, as the step of its opcode. -/
theorem act_command {a : BitVec 6} (d : Word) (s : State) (h : a.toNat / 4 = 0) :
    act (.host true a d) s = exec (.wrCmd d) s := by
  simp only [act, decodeHost_cases, h]

/-- What a host access can do: nothing, a read's value on `hrdata`, a descriptor write, or one of the commands. -/
theorem host_cases (we : Bool) (a : BitVec 6) (d : Word) (s : State) :
    ∃ t, act (.host we a d) s = .next t ∧
      (t = s ∨ (∃ v, t = hostRead v s) ∨
        (∃ r, t = writeDesc r s ∧
          (r.dictBase = s.desc.dictBase ∨ r.dictBase = baseOfWord s.cfg.romAw d) ∧
          (r.seqBase = s.desc.seqBase ∨ r.seqBase = baseOfWord s.cfg.romAw d)) ∨
        (we = true ∧ a.toNat / 4 = 0 ∧
          (d.toNat % 256 = 1 ∧ busy s = true ∧ t = commandError s ∨
            d.toNat % 256 = 1 ∧ busy s = false ∧ t = startRun s ∨
            d.toNat % 256 = 2 ∧ t = abortRun s ∨
            3 ≤ d.toNat % 256 ∧ t = commandError s))) := by
  by_cases hc : we = true ∧ a.toNat / 4 = 0
  · obtain ⟨rfl, ha⟩ := hc
    obtain ⟨h0, h1, h2, h3⟩ := execWrCmd_cases d s
    rw [act_command d s ha]
    rcases Nat.lt_or_ge (d.toNat % 256) 3 with hd | hd
    · interval_cases hx : d.toNat % 256
      · exact ⟨s, h0 rfl, .inl rfl⟩
      · cases hb : busy s
        · exact ⟨startRun s, by rw [h1 rfl]; simp [hb], .inr (.inr (.inr ⟨rfl, ha, by simp⟩))⟩
        · exact ⟨commandError s, by rw [h1 rfl]; simp [hb], .inr (.inr (.inr ⟨rfl, ha, by simp⟩))⟩
      · exact ⟨abortRun s, h2 rfl, .inr (.inr (.inr ⟨rfl, ha, by simp⟩))⟩
    · exact ⟨commandError s, h3 hd, .inr (.inr (.inr ⟨rfl, ha, by simp [hd]⟩))⟩
  · simp only [act, decodeHost_cases]
    split
    · simp_all
    all_goals first
      | exact ⟨_, rfl, .inl rfl⟩
      | exact ⟨_, rfl, .inr (.inl ⟨_, rfl⟩)⟩
      | exact ⟨_, rfl, .inr (.inr (.inl ⟨_, rfl, .inl rfl, .inl rfl⟩))⟩
      | exact ⟨_, rfl, .inr (.inr (.inl ⟨_, rfl, .inr rfl, .inl rfl⟩))⟩
      | exact ⟨_, rfl, .inr (.inr (.inl ⟨_, rfl, .inl rfl, .inr rfl⟩))⟩

/-! ## An index byte -/

/-- An index byte where the sequencer has a position to process: its index is applied, the latch kept (R141, R142, R42). -/
theorem exec_index {i : Instr} {k : BitVec 8} {s : State} (h : indexOperand i = some k)
    (hs : canCheck s = true ∨ canLoad s = true) :
    exec i s = applyIndex k { s with latch := latchAfter i s } := by
  cases i <;> simp only [indexOperand, reduceCtorEq, Option.some.injEq] at h
  all_goals subst h
  · have : (canCheck s || canLoad s) = true := by simpa using hs
    simp [exec, execIdxNibbleHi, this, latchAfter, latchIndex]
  · simp [exec, execIdxNibbleLo, latchAfter]
  · simp [exec, execIdxByte, latchAfter]

/-- The index a decoded index byte stands for (R141, R142). -/
theorem indexOperand_decodeIndex (p : Packing) (i : Nat) (b : Byte) :
    indexOperand (decodeIndex p i b) = some (indexOfByte p i b) := by
  cases p with
  | byte => rfl
  | nibble =>
    rcases Nat.mod_two_eq_zero_or_one i with h | h <;> simp [decodeIndex, decodeNibbleByte, h, indexOperand, indexOfByte]

/-! ## The sequencer's turn -/

/-- The byte the sequencer takes for its position: the latched byte or the ROM's. -/
def fetchedByte (s : State) : Byte :=
  if latchHolds s then s.latch else s.rom.read (seqAddr s.work s.pos.toNat)

/-- The state after the index byte of the position has been taken: the read recorded, the byte of an even nibble position kept
in a build with the latch. -/
def afterFetch (s : State) : State :=
  if latchHolds s then s
  else { s with
    romEn := false, romReads := s.romReads ++ [seqAddr s.work s.pos.toNat]
    latch := if s.work.pack = .nibble ∧ s.pos.toNat % 2 = 0 ∧ s.cfg.latch = true then fetchedByte s else s.latch }

theorem afterFetch_latched {s : State} (h : latchHolds s = true) : afterFetch s = s := by simp [afterFetch, h]

theorem latchHolds_iff (s : State) :
    latchHolds s = true ↔ s.cfg.latch = true ∧ s.work.pack = .nibble ∧ s.pos.toNat % 2 = 1 := by
  simp [latchHolds, and_assoc]

section
variable (s : State)
@[simp] theorem afterFetch_cfg : (afterFetch s).cfg = s.cfg := by unfold afterFetch; split <;> rfl
@[simp] theorem afterFetch_rom : (afterFetch s).rom = s.rom := by unfold afterFetch; split <;> rfl
@[simp] theorem afterFetch_desc : (afterFetch s).desc = s.desc := by unfold afterFetch; split <;> rfl
@[simp] theorem afterFetch_work : (afterFetch s).work = s.work := by unfold afterFetch; split <;> rfl
@[simp] theorem afterFetch_seqState : (afterFetch s).seqState = s.seqState := by unfold afterFetch; split <;> rfl
@[simp] theorem afterFetch_errCode : (afterFetch s).errCode = s.errCode := by unfold afterFetch; split <;> rfl
@[simp] theorem afterFetch_errIdx : (afterFetch s).errIdx = s.errIdx := by unfold afterFetch; split <;> rfl
@[simp] theorem afterFetch_cmdErr : (afterFetch s).cmdErr = s.cmdErr := by unfold afterFetch; split <;> rfl
@[simp] theorem afterFetch_pos : (afterFetch s).pos = s.pos := by unfold afterFetch; split <;> rfl
@[simp] theorem afterFetch_outValid : (afterFetch s).outValid = s.outValid := by unfold afterFetch; split <;> rfl
@[simp] theorem afterFetch_outOn : (afterFetch s).outOn = s.outOn := by unfold afterFetch; split <;> rfl
@[simp] theorem afterFetch_outOff : (afterFetch s).outOff = s.outOff := by unfold afterFetch; split <;> rfl
@[simp] theorem afterFetch_outLast : (afterFetch s).outLast = s.outLast := by unfold afterFetch; split <;> rfl
@[simp] theorem afterFetch_hrdata : (afterFetch s).hrdata = s.hrdata := by unfold afterFetch; split <;> rfl
@[simp] theorem afterFetch_delivered : (afterFetch s).delivered = s.delivered := by unfold afterFetch; split <;> rfl
@[simp] theorem afterFetch_deliveredBefore : (afterFetch s).deliveredBefore = s.deliveredBefore := by
  unfold afterFetch; split <;> rfl
@[simp] theorem afterFetch_script : (afterFetch s).script = s.script := by unfold afterFetch; split <;> rfl
@[simp] theorem afterFetch_canCheck : canCheck (afterFetch s) = canCheck s := by simp [canCheck]
@[simp] theorem afterFetch_canLoad : canLoad (afterFetch s) = canLoad s := by simp [canLoad]
end

/-- The fetch of the index byte and the running of its instruction, as one operation. -/
theorem fetchIndex_exec {s : State} (hs : canCheck s = true ∨ canLoad s = true)
    (ha : latchHolds s = true ∨ seqAddr s.work s.pos.toNat < s.cfg.romSize) :
    fetchIndex exec s = applyIndex (indexOfByte s.work.pack s.pos.toNat (fetchedByte s)) (afterFetch s) := by
  unfold fetchIndex
  cases hl : latchHolds s with
  | true =>
    have hl' := (latchHolds_iff s).mp hl
    simp only [if_true]
    rw [exec_index (indexOperand_decodeIndex _ _ _) hs, afterFetch_latched hl]
    congr 1
    · simp [fetchedByte, hl]
    · simp [decodeIndex, hl'.2.1, decodeNibbleByte, hl'.2.2, latchAfter]
  | false =>
    have ha' : seqAddr s.work s.pos.toNat < s.cfg.romSize := by simpa [hl] using ha
    simp only [Bool.false_eq_true, if_false]
    rw [withRomByte_inside ha']
    dsimp only [romReads_record]
    rw [exec_index (indexOperand_decodeIndex _ _ _) (by simpa only [canCheck, canLoad] using hs)]
    have hb : fetchedByte s = s.rom.read (seqAddr s.work s.pos.toNat) := by simp [fetchedByte, hl]
    congr 1
    · simp [hb]
    · simp only [afterFetch, hl, Bool.false_eq_true, if_false]
      congr 1
      rw [hb]
      cases hp : s.work.pack with
      | byte => simp [decodeIndex, latchAfter]
      | nibble =>
        rcases Nat.mod_two_eq_zero_or_one s.pos.toNat with hm | hm <;>
          simp [decodeIndex, decodeNibbleByte, hm, latchAfter]

/-- At a position of the CHECK pass whose index byte is in the ROM the turn is the fetch of that byte. -/
theorem seq_fetch_check {s : State} (hc : canCheck s = true) (ha : seqAddr s.work s.pos.toNat < s.cfg.romSize) :
    sequencerStep exec s = fetchIndex exec s := by
  have h := (canCheck_iff s).mp hc
  have hne : s.pos ≠ s.work.len := fun e => by rw [e] at h; omega
  simp only [sequencerStep, h.1, if_neg hne, hc, if_true, ge_iff_le, if_neg (Nat.not_le.mpr ha)]

/-- At a position of the EMIT pass with nothing presented the turn is the fetch of its index byte. -/
theorem seq_fetch_load {s : State} (hl : canLoad s = true) : sequencerStep exec s = fetchIndex exec s := by
  have h := (canLoad_iff s).mp hl
  have hne : s.pos ≠ s.work.len := fun e => by rw [e] at h; omega
  simp only [sequencerStep, h.1, h.2.1, Bool.false_eq_true, if_false, if_neg hne, hl, if_true]

/-- Validating or failing a position whose index byte can be read (R161, R162). -/
theorem seq_check {s : State} (hc : canCheck s = true) (ha : seqAddr s.work s.pos.toNat < s.cfg.romSize) :
    sequencerStep exec s =
      .next (checkStep (indexOfByte s.work.pack s.pos.toNat (fetchedByte s)) (afterFetch s)) := by
  rw [seq_fetch_check hc ha, fetchIndex_exec (.inl hc) (.inr ha)]
  simp [applyIndex, hc]

/-- Failing a position whose index byte is outside the ROM (R147, R162). -/
theorem seq_check_outside {s : State} (hc : canCheck s = true) (ha : s.cfg.romSize ≤ seqAddr s.work s.pos.toNat) :
    sequencerStep exec s = .next (raiseDataIntegrity .romRange 0 s) := by
  have h := (canCheck_iff s).mp hc
  have hne : s.pos ≠ s.work.len := fun e => by rw [e] at h; omega
  simp [sequencerStep, h.1, if_neg hne, hc, ha]

/-- Loading a position (R164). -/
theorem seq_load {s : State} (hl : canLoad s = true)
    (ha : latchHolds s = true ∨ seqAddr s.work s.pos.toNat < s.cfg.romSize) :
    sequencerStep exec s = loadEntry (indexOfByte s.work.pack s.pos.toNat (fetchedByte s)) (afterFetch s) := by
  rw [seq_fetch_load hl, fetchIndex_exec (.inr hl) ha]
  simp [applyIndex, canLoad_not_canCheck hl, hl]

/-- What the sequencer's turn can do. -/
theorem seq_cases {s t : State} (h : sequencerStep exec s = .next t) :
    (t = s ∧ canCheck s = false ∧ canLoad s = false) ∨
    (s.seqState = .check ∧ s.pos = s.work.len ∧ t = endCheck s) ∨
    (s.seqState = .emit ∧ s.outValid = false ∧ s.pos = s.work.len ∧ t = endEmit s) ∨
    (canCheck s = true ∧ s.cfg.romSize ≤ seqAddr s.work s.pos.toNat ∧ t = raiseDataIntegrity .romRange 0 s) ∨
    (canCheck s = true ∧ seqAddr s.work s.pos.toNat < s.cfg.romSize ∧
      t = checkStep (indexOfByte s.work.pack s.pos.toNat (fetchedByte s)) (afterFetch s)) ∨
    (canLoad s = true ∧ loadEntry (indexOfByte s.work.pack s.pos.toNat (fetchedByte s)) (afterFetch s) = .next t ∧
      (latchHolds s = true ∨ seqAddr s.work s.pos.toNat < s.cfg.romSize)) := by
  by_cases hc : canCheck s = true
  · rcases Nat.lt_or_ge (seqAddr s.work s.pos.toNat) s.cfg.romSize with ha | ha
    · rw [seq_check hc ha] at h
      cases h
      exact .inr (.inr (.inr (.inr (.inl ⟨hc, ha, rfl⟩))))
    · rw [seq_check_outside hc ha] at h
      cases h
      exact .inr (.inr (.inr (.inl ⟨hc, ha, rfl⟩)))
  by_cases hl : canLoad s = true
  · have ha : latchHolds s = true ∨ seqAddr s.work s.pos.toNat < s.cfg.romSize := by
      by_contra hn
      obtain ⟨h1, h2⟩ := not_or.mp hn
      have h' := (canLoad_iff s).mp hl
      have hne : s.pos ≠ s.work.len := fun e => by rw [e] at h'; omega
      simp only [sequencerStep, h'.1, h'.2.1, Bool.false_eq_true, if_false, if_neg hne, hl, if_true, fetchIndex, h1] at h
      exact h2 (withRomByte_next h).1
    rw [seq_load hl ha] at h
    exact .inr (.inr (.inr (.inr (.inr ⟨hl, h, ha⟩))))
  have hc' : canCheck s = false := by simpa using hc
  have hl' : canLoad s = false := by simpa using hl
  unfold sequencerStep at h
  cases hq : s.seqState <;> simp only [hq, hc', hl', Bool.false_eq_true, if_false] at h
  · cases h; exact .inl ⟨rfl, hc', hl'⟩
  · split at h
    · next he => cases h; exact .inr (.inl ⟨rfl, he, rfl⟩)
    · cases h; exact .inl ⟨rfl, hc', hl'⟩
  · split at h
    · cases h; exact .inl ⟨rfl, hc', hl'⟩
    · next hv =>
      split at h
      · next he => cases h; exact .inr (.inr (.inl ⟨rfl, by simpa using hv, he, rfl⟩))
      · cases h; exact .inl ⟨rfl, hc', hl'⟩
  · cases h; exact .inl ⟨rfl, hc', hl'⟩
  · cases h; exact .inl ⟨rfl, hc', hl'⟩

/-- What the consumer's turn can do. -/
theorem consumer_cases (s : State) :
    (s.seqState = .emit ∧ s.outValid = true ∧ consumerStep s = acceptPair s) ∨
    ((s.seqState ≠ .emit ∨ s.outValid = false) ∧ consumerStep s = s) := by
  unfold consumerStep
  split
  · next h => exact .inl ⟨h.1, h.2, rfl⟩
  · next h =>
    refine .inr ⟨?_, rfl⟩
    rw [not_and_or] at h
    simpa using h

end Sys2Proof.Machine
end

