-- ==== Sys2Proof/Laws/Run.lean ====
section
/-! SUPPORT. Lemmas for claims about whole runs: what the sequencer's check and load steps leave, what the latch holds, the
arithmetic of `POS` and of index addresses, and one induction over the agents of a step. -/

namespace Sys2Proof.Machine

open Sys2Proof.Safety

/-! ## Arithmetic -/

/-- A length is a 16-bit value. -/
theorem len_lt (r : Record) : r.len.toNat < 65536 := r.len.isLt

/-- `POS` does not wrap below a length (R161). -/
theorem pos_succ {s : State} {n : Nat} (h : s.pos.toNat < n) (hn : n < 65536) :
    (s.pos + 1).toNat = s.pos.toNat + 1 := by
  rw [BitVec.toNat_add]; simp; omega

/-- A base register of at most 24 bits holds the low bits of the data word (R104, R106). -/
theorem baseOfWord_toNat {n : Nat} (h : n ≤ 24) (d : Word) : (baseOfWord n d).toNat = d.toNat % 2 ^ n := by
  have h1 : d.toNat % 2 ^ n < 2 ^ n := Nat.mod_lt _ (by positivity)
  have h2 : 2 ^ n ≤ 2 ^ 24 := Nat.pow_le_pow_right (by decide) h
  rw [baseOfWord, BitVec.toNat_ofNat, Nat.mod_eq_of_lt (by omega)]

theorem baseOfWord_lt {n : Nat} (h : n ≤ 24) (d : Word) : (baseOfWord n d).toNat < 2 ^ n := by
  rw [baseOfWord_toNat h]
  exact Nat.mod_lt _ (by positivity)

/-- The two positions of one nibble-packed byte (R140). -/
theorem seqAddr_odd (r : Record) (n : Nat) (hp : r.pack = .nibble) (h : n % 2 = 0) :
    seqAddr r (n + 1) = seqAddr r n := by
  simp [seqAddr, hp]; omega

/-- Every position of a record has its index byte among the record's index bytes (R143, R74). -/
theorem seqAddr_in (r : Record) {i : Nat} (h : i < r.len.toNat) :
    ∃ j < seqBytes r.pack r.len.toNat, seqAddr r i = r.seqBase.toNat + j := by
  unfold seqAddr seqBytes
  cases r.pack
  · exact ⟨i / 2, by simp; omega, rfl⟩
  · exact ⟨i, h, rfl⟩

theorem length_expectedRun (c : Config) (rom : Memory) (r : Record) :
    (expectedRun c rom r).length = r.len.toNat := by simp [expectedRun]

/-- One more pair of the expected run. -/
theorem take_succ_expectedRun (c : Config) (rom : Memory) (r : Record) {n : Nat} (h : n < r.len.toNat) :
    (expectedRun c rom r).take (n + 1) = (expectedRun c rom r).take n ++ [expectedTransfer c rom r n] := by
  rw [List.take_add_one]
  congr 1
  simp [expectedRun, h]

/-! ## The fetch of an index byte -/

/-- What the fetch adds to the ROM reads. -/
theorem afterFetch_romReads (s : State) :
    (afterFetch s).romReads = s.romReads ++
      (if s.cfg.latch = true ∧ s.work.pack = .nibble ∧ s.pos.toNat % 2 = 1 then []
       else [seqAddr s.work s.pos.toNat]) := by
  unfold afterFetch
  by_cases h : latchHolds s = true
  · rw [if_pos h, if_pos ((latchHolds_iff s).mp h)]; simp
  · rw [if_neg h, if_neg (fun h' => h ((latchHolds_iff s).mpr h'))]

theorem afterFetch_mem_romReads {s : State} {a : Nat} (h : a ∈ (afterFetch s).romReads) :
    a ∈ s.romReads ∨ a = seqAddr s.work s.pos.toNat := by
  rw [afterFetch_romReads] at h
  split at h
  · exact .inl (by simpa using h)
  · simpa using h

theorem afterFetch_romEn {s : State} (h : s.romEn = false) : (afterFetch s).romEn = false := by
  unfold afterFetch; split
  · exact h
  · rfl

/-- Without the option the latch stays. -/
theorem afterFetch_latch_off {s : State} (h : s.cfg.latch = false) : (afterFetch s).latch = s.latch := by
  unfold afterFetch; split
  · rfl
  · simp [h]

/-- In a state of a run the byte fetched is the ROM's byte at the position's address, latched or not (R42). -/
theorem fetchedByte_eq {s : State} (h : RunInv s) (hs : canCheck s = true ∨ canLoad s = true) :
    fetchedByte s = s.rom.read (seqAddr s.work s.pos.toNat) := by
  unfold fetchedByte
  split
  · next hl =>
    obtain ⟨h1, h2, h3⟩ := (latchHolds_iff s).mp hl
    refine h.latched h1 h2 ?_ (.inl h3)
    rcases hs with hs | hs
    · exact .inl ((canCheck_iff s).mp hs).1
    · exact .inr ((canLoad_iff s).mp hs).1
  · rfl

/-- After the fetch the latch of a build that has one holds the byte of the position. -/
theorem afterFetch_latch_on {s : State} (h : RunInv s) (hs : canCheck s = true ∨ canLoad s = true)
    (hl : s.cfg.latch = true) (hp : s.work.pack = .nibble) :
    (afterFetch s).latch = s.rom.read (seqAddr s.work s.pos.toNat) := by
  have hf := fetchedByte_eq h hs
  unfold afterFetch
  split
  · next hh =>
    obtain ⟨h1, h2, h3⟩ := (latchHolds_iff s).mp hh
    refine h.latched h1 h2 ?_ (.inl h3)
    rcases hs with hs | hs
    · exact .inl ((canCheck_iff s).mp hs).1
    · exact .inr ((canLoad_iff s).mp hs).1
  · next hh =>
    rw [latchHolds_iff] at hh
    simp [hl, hp] at hh
    simp [hl, hp, hh, hf]

/-! ## The check and the load -/

/-- A check step validates the position or raises the error of its index. -/
theorem checkStep_cases (k : BitVec 8) (u : State) :
    (checkIndex u.cfg u.work k = .ok ∧ checkStep k u = advance u) ∨
    (∃ c, c ≠ .none ∧ checkIndex u.cfg u.work k = .err c k ∧ checkStep k u = raiseDataIntegrity c k u) := by
  unfold checkStep
  cases h : checkIndex u.cfg u.work k with
  | ok => exact .inl ⟨rfl, rfl⟩
  | err c k' =>
    obtain ⟨h1, rfl⟩ := checkIndex_err h
    exact .inr ⟨c, h1, rfl, rfl⟩

/-- A load that goes on: the whole state after it. -/
theorem loadEntry_afterFetch {s t : State} (hl : canLoad s = true)
    (h : loadEntry (indexOfByte s.work.pack s.pos.toNat (fetchedByte s)) (afterFetch s) = .next t) :
    ∃ k, k = indexOfByte s.work.pack s.pos.toNat (fetchedByte s) ∧
      entryAddr s.cfg s.work k + esz s.cfg ≤ s.cfg.romSize ∧
      t = { afterFetch s with
        outOn := (entry s.cfg s.rom s.work k).1, outOff := (entry s.cfg s.rom s.work k).2
        outLast := decide (s.pos.toNat + 1 = s.work.len.toNat), outValid := true
        romReads := (afterFetch s).romReads ++ (List.range (esz s.cfg)).map (entryAddr s.cfg s.work k + ·)
        romEn := false } := by
  have hi := loadEntry_next h
  rw [loadEntry_inside (by simpa using hl) hi] at h
  cases h
  exact ⟨_, rfl, by simpa using hi, by simp⟩

/-- What the sequencer's turn never changes. -/
theorem sequencerStep_frame {s t : State} (ht : sequencerStep exec s = .next t) :
    t.cfg = s.cfg ∧ t.rom = s.rom ∧ t.work = s.work ∧ t.desc = s.desc ∧ t.cmdErr = s.cmdErr ∧ t.hrdata = s.hrdata ∧
      t.delivered = s.delivered ∧ t.deliveredBefore = s.deliveredBefore ∧ t.script = s.script := by
  rcases seq_cases ht with ⟨rfl, -, -⟩ | ⟨-, -, rfl⟩ | ⟨-, -, -, rfl⟩ | ⟨-, -, rfl⟩ | ⟨-, -, rfl⟩ | ⟨hl, h1, -⟩
  · simp
  · simp
  · simp
  · simp
  · rcases checkStep_cases (indexOfByte s.work.pack s.pos.toNat (fetchedByte s)) (afterFetch s) with
      ⟨-, e⟩ | ⟨c, -, -, e⟩ <;> rw [e] <;> simp
  · obtain ⟨k, -, -, rfl⟩ := loadEntry_afterFetch hl h1
    simp

/-- What the consumer's turn never changes. -/
theorem consumerStep_frame (s : State) :
    (consumerStep s).cfg = s.cfg ∧ (consumerStep s).rom = s.rom ∧ (consumerStep s).work = s.work ∧
      (consumerStep s).desc = s.desc ∧ (consumerStep s).cmdErr = s.cmdErr ∧ (consumerStep s).seqState = s.seqState ∧
      (consumerStep s).errCode = s.errCode ∧ (consumerStep s).errIdx = s.errIdx ∧
      (consumerStep s).hrdata = s.hrdata ∧ (consumerStep s).script = s.script := by
  rcases consumer_cases s with ⟨-, -, e⟩ | ⟨-, e⟩ <;> rw [e] <;> simp

/-! ## The schedule -/

theorem StatusInv_script {s : State} (h : StatusInv s) (x : List Line) : StatusInv { s with script := x } :=
  ⟨h.posLe, h.valid, h.errCode, h.errIdx, h.done, h.idle⟩

theorem RunInv_script {s : State} (h : RunInv s) (x : List Line) : RunInv { s with script := x } :=
  ⟨StatusInv_script h.status x, h.checked, h.passed, h.failed, h.quiet, h.sent, h.shown, h.aborted, h.latched⟩

theorem RomPortInv_script {s : State} (h : RomPortInv s) (x : List Line) : RomPortInv { s with script := x } :=
  ⟨h.idle, h.inside, h.needed, h.checkOnly⟩

/-- What every agent's step keeps, and what does not look at the schedule, every step keeps. -/
theorem step_keeps {P : State → Prop}
    (hhost : ∀ s t we a d, P s → act (.host we a d) s = .next t → P t)
    (hseq : ∀ s t, P s → sequencerStep exec s = .next t → P t) (hcon : ∀ s, P s → P (consumerStep s))
    (hrst : ∀ s, P s → P (applyReset s)) (hscript : ∀ s x, P s → P { s with script := x }) :
    ∀ s t, P s → step s = .next t → P t := by
  intro s t hs h
  rcases step_cases h with ⟨e, -, he⟩ | ⟨-, he⟩ | ⟨m, rest, -, rfl⟩
  · cases e with
    | host we a d => exact hhost _ _ we a d (hscript _ _ hs) he
    | seq => exact hseq _ _ (hscript _ _ hs) he
    | xfer => simp only [act] at he; cases he; exact hcon _ (hscript _ _ hs)
    | rst => simp only [act] at he; cases he; exact hrst _ (hscript _ _ hs)
  · exact hseq _ _ hs he
  · exact hscript _ _ hs

/-- A step by its agent: the agent's own step in the same state but for the schedule, or a macro replaced. -/
theorem step_effect {s t : State} (h : step s = .next t) :
    (∃ u, (u = s ∨ ∃ x, u = { s with script := x }) ∧
      ((∃ we a d, Next s (.host we a d) ∧ act (.host we a d) u = .next t) ∨
       ((Next s .seq ∨ s.script = []) ∧ sequencerStep exec u = .next t) ∨
       (Next s .xfer ∧ t = consumerStep u) ∨ (Next s .rst ∧ t = applyReset u))) ∨
    (∃ x, t = { s with script := x }) := by
  rcases step_cases h with ⟨e, hn, he⟩ | ⟨hn, he⟩ | ⟨m, rest, -, rfl⟩
  · refine .inl ⟨{ s with script := s.script.tail }, .inr ⟨s.script.tail, rfl⟩, ?_⟩
    cases e with
    | host we a d => exact .inl ⟨we, a, d, hn, he⟩
    | seq => exact .inr (.inl ⟨.inl hn, he⟩)
    | xfer => simp only [act] at he; cases he; exact .inr (.inr (.inl ⟨hn, rfl⟩))
    | rst => simp only [act] at he; cases he; exact .inr (.inr (.inr ⟨hn, rfl⟩))
  · exact .inl ⟨s, .inl rfl, .inr (.inl ⟨.inr hn, he⟩)⟩
  · exact .inr ⟨_, rfl⟩

/-! ## The start of a run -/

/-- A START at the head of the schedule, not busy: one step, the accepted START (R114). -/
theorem step_start {s : State} {rest : List Line} (hb : busy s = false) (hs : s.script = lineStart :: rest) :
    step s = .next (startRun { s with script := rest }) := by
  have hb' : busy { s with script := rest } = false := hb
  rw [step_act hs, act_command _ _ (by decide), (execWrCmd_cases _ _).2.1 (by decide)]
  simp [hb']

/-- An accepted START from any state, reachable or not, begins a run that meets the invariant. -/
theorem RunInv_startRun (s : State) : RunInv (startRun s) := by
  have h : StatusInv (startRun s) := by constructor <;> simp [startRun, clearError]
  refine ⟨h, ?_, ?_, ?_, ?_, ?_, ?_, ?_, ?_⟩ <;> simp [startRun, clearError]

/-- The loop of a RUN at the head of the schedule, the run not ended: a turn of each agent, then the loop again (R94). -/
theorem step_runLoop {s : State} {rest : List Line} (hs : s.script = .expand .runLoop :: rest)
    (h : s.seqState ≠ .done ∧ s.seqState ≠ .error) :
    step s = .next { s with script := lineStep :: lineXfer :: .expand .runLoop :: rest } := by
  rw [step_expand hs]
  simp [expandMacro, h.1, h.2]

/-- The loop of a RUN, the run ended. -/
theorem step_runLoop_ended {s : State} {rest : List Line} (hs : s.script = .expand .runLoop :: rest)
    (h : s.seqState = .done ∨ s.seqState = .error) : step s = .next { s with script := rest } := by
  rw [step_expand hs]
  rcases h with h | h <;> simp [expandMacro, h]

/-- Bit 3 of the status word is `BUSY` (R25). -/
theorem statusWord_busy (s : State) : (statusWord s).getLsbD 3 = busy s := by
  rw [statusWord, BitVec.getLsbD_append, BitVec.getLsbD_append]
  cases busy s <;> rfl

/-- The two steps of a `POLL` up to its test: the status word is read, whole and with no other effect (R94, R119). -/
theorem run_pollRead {s : State} {others : List (List Event)} {rest : List Line}
    (hs : s.script = .expand (.poll others) :: rest) :
    core.run 2 s = .next { s with hrdata := statusWord s, script := .expand (.pollLoop others) :: rest } := by
  rw [run_step (step_expand hs),
    run_step (s' := { s with hrdata := statusWord s, script := .expand (.pollLoop others) :: rest }) ?_, run_zero]
  exact step_act (s := { s with script := expandMacro (.poll others) s ++ rest }) rfl

/-- A `POLL` whose read had `BUSY = 1`: the other agents' turn, then the next read (R94). -/
theorem step_pollLoop {s : State} {others : List (List Event)} {rest : List Line}
    (hs : s.script = .expand (.pollLoop others) :: rest) (h : s.hrdata.getLsbD 3 = true) :
    step s = .next { s with script := betweenReads others ++ .expand (.poll others.tail) :: rest } := by
  rw [step_expand hs]
  simp only [expandMacro, h, if_true, List.append_assoc, List.cons_append, List.nil_append]

/-- A `POLL` whose read had `BUSY = 0` ends (R94). -/
theorem step_pollLoop_ended {s : State} {others : List (List Event)} {rest : List Line}
    (hs : s.script = .expand (.pollLoop others) :: rest) (h : s.hrdata.getLsbD 3 = false) :
    step s = .next { s with script := rest } := by
  rw [step_expand hs]
  simp only [expandMacro, h, Bool.false_eq_true, if_false, List.nil_append]

end Sys2Proof.Machine
end

