-- ==== Sys2Proof/Tests/Slice0.lean ====
section
/-! SUPPORT. Tests. Expected values are written out from spec/ (30_encoding.md for the words, 95_test_vectors.md for the vectors
named in the docstrings), never from the model. The second half holds a witness for the hypotheses of every obligation that has
any. -/

namespace Sys2Proof.Tests.Slice0

open Sys2Proof.Machine Sys2Proof.Safety

/-! ## Well-formedness: the one check refuses the opcodes that are NOP, START and ABORT (R83) -/

theorem test_wf_refuses_nop_as_reserved : wellFormed (.cmdReserved 0x00) = false := by decide
theorem test_wf_refuses_start_as_reserved : wellFormed (.cmdReserved 0x01) = false := by decide
theorem test_wf_refuses_abort_as_reserved : wellFormed (.cmdReserved 0x02) = false := by decide
theorem test_wf_takes_reserved : wellFormed (.cmdReserved 0x03) = true ∧ wellFormed (.cmdReserved 0xFF) = true := by
  decide

/-! ## Decoding: words written out from the spec's encodings (R81, R83 to R87) -/

/-- HOSTACC7 writes: `we = 1` is bit 6, the offset is bits [5:0], then `hwdata` = 0x89ABCDEF. -/
theorem test_decode_writes :
    decode .hostacc7 [0x40, 0xEF, 0xCD, 0xAB, 0x89] = .ok (.wrCmd 0x89ABCDEF, []) ∧
    decode .hostacc7 [0x44, 0xEF, 0xCD, 0xAB, 0x89] = .ok (.wrStatus 0x89ABCDEF, []) ∧
    decode .hostacc7 [0x48, 0xEF, 0xCD, 0xAB, 0x89] = .ok (.wrPos 0x89ABCDEF, []) ∧
    decode .hostacc7 [0x4C, 0xEF, 0xCD, 0xAB, 0x89] = .ok (.wrMode 0x89ABCDEF, []) ∧
    decode .hostacc7 [0x50, 0xEF, 0xCD, 0xAB, 0x89] = .ok (.wrDictBase 0x89ABCDEF, []) ∧
    decode .hostacc7 [0x54, 0xEF, 0xCD, 0xAB, 0x89] = .ok (.wrDictN 0x89ABCDEF, []) ∧
    decode .hostacc7 [0x58, 0xEF, 0xCD, 0xAB, 0x89] = .ok (.wrSeqBase 0x89ABCDEF, []) ∧
    decode .hostacc7 [0x5C, 0xEF, 0xCD, 0xAB, 0x89] = .ok (.wrLen 0x89ABCDEF, []) ∧
    decode .hostacc7 [0x60, 0xEF, 0xCD, 0xAB, 0x89] = .ok (.wrCarrier 0x89ABCDEF, []) ∧
    decode .hostacc7 [0x64, 0xEF, 0xCD, 0xAB, 0x89] = .ok (.wrCfg 0x89ABCDEF, []) ∧
    decode .hostacc7 [0x68, 0xEF, 0xCD, 0xAB, 0x89] = .ok (.wrUnmapped28 0x89ABCDEF, []) ∧
    decode .hostacc7 [0x6C, 0xEF, 0xCD, 0xAB, 0x89] = .ok (.wrUnmapped2C 0x89ABCDEF, []) ∧
    decode .hostacc7 [0x70, 0xEF, 0xCD, 0xAB, 0x89] = .ok (.wrUnmapped30 0x89ABCDEF, []) ∧
    decode .hostacc7 [0x74, 0xEF, 0xCD, 0xAB, 0x89] = .ok (.wrUnmapped34 0x89ABCDEF, []) ∧
    decode .hostacc7 [0x78, 0xEF, 0xCD, 0xAB, 0x89] = .ok (.wrUnmapped38 0x89ABCDEF, []) ∧
    decode .hostacc7 [0x7C, 0xEF, 0xCD, 0xAB, 0x89] = .ok (.wrUnmapped3C 0x89ABCDEF, []) := by
  refine ⟨?_, ?_, ?_, ?_, ?_, ?_, ?_, ?_, ?_, ?_, ?_, ?_, ?_, ?_, ?_, ?_⟩ <;> rfl

/-- HOSTACC7 reads: `we = 0`, one access byte. -/
theorem test_decode_reads :
    decode .hostacc7 [0x00] = .ok (.rdCmd, []) ∧
    decode .hostacc7 [0x04] = .ok (.rdStatus, []) ∧
    decode .hostacc7 [0x08] = .ok (.rdPos, []) ∧
    decode .hostacc7 [0x0C] = .ok (.rdMode, []) ∧
    decode .hostacc7 [0x10] = .ok (.rdDictBase, []) ∧
    decode .hostacc7 [0x14] = .ok (.rdDictN, []) ∧
    decode .hostacc7 [0x18] = .ok (.rdSeqBase, []) ∧
    decode .hostacc7 [0x1C] = .ok (.rdLen, []) ∧
    decode .hostacc7 [0x20] = .ok (.rdCarrier, []) ∧
    decode .hostacc7 [0x24] = .ok (.rdCfg, []) ∧
    decode .hostacc7 [0x28] = .ok (.rdUnmapped28, []) ∧
    decode .hostacc7 [0x2C] = .ok (.rdUnmapped2C, []) ∧
    decode .hostacc7 [0x30] = .ok (.rdUnmapped30, []) ∧
    decode .hostacc7 [0x34] = .ok (.rdUnmapped34, []) ∧
    decode .hostacc7 [0x38] = .ok (.rdUnmapped38, []) ∧
    decode .hostacc7 [0x3C] = .ok (.rdUnmapped3C, []) := by
  refine ⟨?_, ?_, ?_, ?_, ?_, ?_, ?_, ?_, ?_, ?_, ?_, ?_, ?_, ?_, ?_, ?_⟩ <;> rfl

/-- Bits [1:0] of the offset are ignored (R81). -/
theorem test_decode_low_offset_bits :
    decode .hostacc7 [0x07] = .ok (.rdStatus, []) ∧
    decode .hostacc7 [0x4E, 0x01, 0x00, 0x00, 0x00] = .ok (.wrMode 1, []) := ⟨rfl, rfl⟩

/-- CMD32: the opcode is bits [7:0], the others are ignored (R82, R83; vector H7). -/
theorem test_decode_commands :
    decode .cmd32 [0x00, 0x01, 0x00, 0x00] = .ok (.nop, []) ∧
    decode .cmd32 [0x01, 0x00, 0x00, 0x00] = .ok (.start, []) ∧
    decode .cmd32 [0x02, 0x00, 0x00, 0x80] = .ok (.abort, []) ∧
    decode .cmd32 [0x03, 0x00, 0x00, 0x00] = .ok (.cmdReserved 0x03, []) ∧
    decode .cmd32 [0xFF, 0xFF, 0xFF, 0xFF] = .ok (.cmdReserved 0xFF, []) := ⟨rfl, rfl, rfl, rfl, rfl⟩

/-- Index bytes (R84, R85; vectors U1, U2, U6): 0x2A is hi 2 and lo 10, or the byte 42. -/
theorem test_decode_indices :
    decode (.idxn8 false) [0x2A] = .ok (.idxNibbleHi 2 10, []) ∧
    decode (.idxn8 true) [0x2A] = .ok (.idxNibbleLo 2 10, []) ∧
    decode .idxb8 [0x2A] = .ok (.idxByte 42, []) := ⟨rfl, rfl, rfl⟩

/-- Entries (R86, R87; vectors L1, L3): `80 3F` is (128, 63), `10 27 88 13` is (10000, 5000). -/
theorem test_decode_entries :
    decode .ent16 [0x80, 0x3F] = .ok (.entryTw8 128 63, []) ∧
    decode .ent32 [0x10, 0x27, 0x88, 0x13] = .ok (.entryTw16 10000 5000, []) := ⟨rfl, rfl⟩

/-- No instruction: bit 7 of an access byte, and too few bytes. -/
theorem test_decode_rejects :
    decode .hostacc7 [0x80] = .error (.hostAccessBit7 0x80) ∧
    decode .hostacc7 [0x40, 0x01] = .error (.truncated .hostacc7 2) ∧
    decode .ent32 [0x10, 0x27, 0x88] = .error (.truncated .ent32 3) := ⟨rfl, rfl, rfl⟩

/-- Words as the opcode table numbers them. -/
theorem test_table_words :
    decodeTableWord 8 0x50 = some (.wrDictBase 0) ∧ decodeTableWord 8 0x24 = some .rdCfg ∧
    decodeTableWord 32 0x00000001 = some .start ∧ decodeTableWord 16 0x3F80 = some (.entryTw8 0x80 0x3F) :=
  ⟨rfl, rfl, rfl, rfl⟩

/-! ## A small state -/

/-- A field of the next state. -/
def fieldOf {α : Type} (f : State → α) (o : Host.Outcome State Fault Refusal) : Option α :=
  match o with
  | .next t => some (f t)
  | _ => none

/-- Entries (1,2), (3,4) at 0 as in vectors K1 to K4, index bytes `10 21` at 4. -/
def testRom : Memory := Memory.writeBytes [] 0 [0x01, 0x02, 0x03, 0x04, 0x10, 0x21]

/-- A record over it: indices 1, 0, then 2 (not below `DICT_N`). -/
def testRecord (len : Half) : Record :=
  { dictBase := 0, dictN := 2, seqBase := 4, len := len, carrier := 14, pack := .nibble }

/-- A state of a run of that record at a position. -/
def testState (len : Half) (q : SeqState) (pos : Half) : State :=
  { State.resetOf Config.default testRom with
    desc := testRecord len, work := testRecord len, seqState := q, pos := pos }

theorem test_memory_canonical : Memory.wf State.reset.rom = true ∧ Memory.wf testRom = true := by decide

theorem test_memory_write_unlisted_removes :
    Memory.write (Memory.write [] 7 0x55) 7 0x00 = [] ∧ Memory.read (Memory.write [] 7 0x55) 7 = 0x55 := by decide

/-! ## The unpacker: vectors U, L, K -/

/-- U7 to U10. -/
theorem test_seqAddr_and_seqBytes :
    seqAddr { testRecord 9 with seqBase := 0x200 } 5 = 0x202 ∧
    seqAddr { testRecord 9 with seqBase := 0x200, pack := .byte } 5 = 0x205 ∧
    seqAddr { testRecord 9 with seqBase := 0xFFFF, pack := .byte } 1 = 0x10000 ∧
    [0, 1, 2, 5, 65535].map (seqBytes .nibble) = [0, 1, 1, 3, 32768] ∧
    [0, 1, 5, 65535].map (seqBytes .byte) = [0, 1, 5, 65535] := by decide

/-- U1 to U6b. -/
theorem test_indexOfByte :
    indexOfByte .nibble 0 0x2A = 2 ∧ indexOfByte .nibble 1 0x2A = 10 ∧ indexOfByte .nibble 4 0xF0 = 15 ∧
    indexOfByte .nibble 5 0xF0 = 0 ∧ indexOfByte .nibble 6 0x0F = 0 ∧ indexOfByte .byte 3 0x2A = 42 ∧
    indexOfByte .byte 4 0xFF = 255 := by decide

/-- L1 and L3: the entries' places and values. -/
theorem test_entry :
    entry Config.default [(0x104, 0x80), (0x105, 0x3F)] { testRecord 1 with dictBase := 0x100 } 2 = (128, 63) ∧
    entry { Config.default with tw := .tw16 } [(0x10C, 0x10), (0x10D, 0x27), (0x10E, 0x88), (0x10F, 0x13)]
      { testRecord 1 with dictBase := 0x100 } 3 = (10000, 5000) := by decide

/-- K2, K4, K5 and K7. -/
theorem test_checkPos :
    checkPos Config.default testRom { testRecord 2 with dictN := 1 } 0 = .err .indexRange 1 ∧
    checkPos Config.default testRom { testRecord 2 with dictN := 0 } 0 = .err .indexRange 1 ∧
    checkPos { Config.default with romSize := 0x400 } [] { testRecord 3 with dictN := 1, seqBase := 0x3FF } 2
      = .err .romRange 0 ∧
    checkPos { Config.default with romSize := 0x400 } [(0, 0xF0)]
      { testRecord 1 with dictBase := 0x3FE, dictN := 1, seqBase := 0 } 0 = .err .indexRange 15 := by decide

/-! ## Host accesses and commands: vectors H and the examples of 40_host_interface.md -/

/-- H1. -/
theorem test_wrMode : fieldOf (·.desc.pack) (exec (.wrMode 0xFFFFFFFF) State.reset) = some .byte := by decide

/-- H2. -/
theorem test_wrDictBase : fieldOf (·.desc.dictBase) (exec (.wrDictBase 0x12345678) State.reset) = some 0x5678 := by
  decide

/-- H3. -/
theorem test_wrDictN : fieldOf (·.desc.dictN) (exec (.wrDictN 0x200) State.reset) = some 0 := by decide

/-- R106's example. -/
theorem test_wrSeqBase : fieldOf (·.desc.seqBase) (exec (.wrSeqBase 0x10200) State.reset) = some 0x200 := by decide

/-- H3b. -/
theorem test_wrLen : fieldOf (·.desc.len) (exec (.wrLen 0x00010032) State.reset) = some 0x32 := by decide

/-- H14: the write does not change `carrier_o`. -/
theorem test_wrCarrier :
    fieldOf (fun t => (t.desc.carrier, (outPorts t).carrierO)) (exec (.wrCarrier 38) (testState 2 .emit 0))
      = some (38, 14) := by decide

/-- H10. -/
theorem test_wrStatus : fieldOf id (exec (.wrStatus 0xFFFFFFFF) State.reset) = some State.reset := by decide
theorem test_wrPos : fieldOf (·.pos) (exec (.wrPos 5) (testState 2 .check 1)) = some 1 := by decide
theorem test_wrCfg : fieldOf (·.cfg) (exec (.wrCfg 0) State.reset) = some Config.default := by decide

/-- H5. -/
theorem test_wrCmd_start_busy :
    fieldOf statusWord (exec (.wrCmd 0x00000001) (testState 2 .check 0)) = some 0x00000109 := by decide

/-- H6 and H7. -/
theorem test_wrCmd_reserved_and_nop :
    fieldOf statusWord (exec (.wrCmd 0x00000003) State.reset) = some 0x00000100 ∧
    fieldOf statusWord (exec (.wrCmd 0x00000100) State.reset) = some 0 := by decide

theorem test_nop : fieldOf id (exec .nop (testState 2 .emit 1)) = some (testState 2 .emit 1) := by decide

/-- R114's example. -/
theorem test_start :
    fieldOf (fun t => (t.seqState, t.pos, t.work.len)) (exec .start { testState 3 .idle 0 with work := Record.zero })
      = some (.check, 0, 3) := by decide

/-- A run in ERROR: INDEX_RANGE with index 2 at position 2. -/
def testError : State := { testState 3 .error 2 with errCode := .indexRange, errIdx := 2 }

/-- The layout of R119 on it, and H8. -/
theorem test_abort_from_error :
    statusWord testError = 0x00020014 ∧ fieldOf statusWord (exec .abort testError) = some 0 := by decide

/-- H9: the presented pair is withdrawn and nothing is transferred. -/
theorem test_abort_withdraws :
    fieldOf (fun t => (t.outValid, t.seqState, t.delivered))
      (exec .abort { testState 2 .emit 0 with outValid := true }) = some (false, .idle, []) := by decide

theorem test_cmdReserved : fieldOf statusWord (exec (.cmdReserved 0xFF) State.reset) = some 0x00000100 := by decide

/-- R119's example: ERROR, INDEX_RANGE, `ERRIDX = 5`. -/
theorem test_rdStatus :
    fieldOf (·.hrdata) (exec .rdStatus { testError with errIdx := 5 }) = some 0x00050014 := by decide

/-- R120: zero-extended. -/
theorem test_rdPos : fieldOf (·.hrdata) (exec .rdPos (testState 50 .done 50)) = some 0x00000032 := by decide

/-- H12 and H13. -/
theorem test_rdCfg :
    fieldOf (·.hrdata) (exec .rdCfg State.reset) = some 0x00001000 ∧
    fieldOf (·.hrdata) (exec .rdCfg { State.reset with cfg := { Config.default with tw := .tw16 } })
      = some 0x00001001 := by decide

/-- The descriptor registers, not the working registers (R112): 8 distinct values. -/
def testDescriptor : State :=
  { testState 2 .check 1 with
    desc := { dictBase := 0x11, dictN := 0x122, seqBase := 0x33, len := 0x44, carrier := 0x55, pack := .byte } }

theorem test_rdDescriptor :
    fieldOf (·.hrdata) (exec .rdMode testDescriptor) = some 1 ∧
    fieldOf (·.hrdata) (exec .rdDictBase testDescriptor) = some 0x11 ∧
    fieldOf (·.hrdata) (exec .rdDictN testDescriptor) = some 0x122 ∧
    fieldOf (·.hrdata) (exec .rdSeqBase testDescriptor) = some 0x33 ∧
    fieldOf (·.hrdata) (exec .rdLen testDescriptor) = some 0x44 ∧
    fieldOf (·.hrdata) (exec .rdCarrier testDescriptor) = some 0x55 := by decide

/-- H11 and the other unmapped words. -/
theorem test_unmapped_reads :
    [Instr.rdCmd, .rdUnmapped28, .rdUnmapped2C, .rdUnmapped30, .rdUnmapped34, .rdUnmapped38, .rdUnmapped3C].map
      (fun i => fieldOf (·.hrdata) (exec i { State.reset with hrdata := 7 })) = List.replicate 7 (some 0) := by decide

theorem test_unmapped_writes :
    [Instr.wrUnmapped28 1, .wrUnmapped2C 1, .wrUnmapped30 1, .wrUnmapped34 1, .wrUnmapped38 1, .wrUnmapped3C 1].map
      (fun i => fieldOf id (exec i testError)) = List.replicate 6 (some testError) := by decide

/-! ## The sequencer and the consumer: vectors S -/

/-- S1: CHECK_NEXT; the index byte at 4 is read. -/
theorem test_check_next :
    fieldOf (fun t => (t.seqState, t.pos, t.romReads)) (step (testState 3 .check 1)) = some (.check, 2, [4]) := by decide

/-- S2: CHECK_END. -/
theorem test_check_end :
    fieldOf (fun t => (t.seqState, t.pos, t.romReads)) (step (testState 3 .check 3)) = some (.emit, 0, []) := by decide

/-- CHECK_FAIL (R162): index 2 at position 2. -/
theorem test_check_fail :
    fieldOf (fun t => (statusWord t, t.pos)) (step (testState 3 .check 2)) = some (0x00020014, 2) := by decide

/-- S3's kind: the last position of a record of two has index 0, entry (1,2). -/
theorem test_emit_load :
    fieldOf (fun t => (t.outValid, t.outOn, t.outOff, t.outLast)) (step (testState 2 .emit 1))
      = some (true, 1, 2, true) ∧
    fieldOf (fun t => (t.pos, t.romReads)) (step (testState 2 .emit 1)) = some (1, [4, 0, 1]) := by decide

/-- A presented pair. -/
def testShown : State := { testState 2 .emit 0 with outValid := true, outOn := 3, outOff := 4, romReads := [4, 2, 3] }

/-- S4: XFER. -/
theorem test_xfer :
    fieldOf (fun t => (t.delivered, t.outValid, t.pos)) (step { testShown with script := [lineXfer] })
      = some ([{ on := 3, off := 4, last := false, pos := 0 }], false, 1) := by decide

/-- S6 and S7: no step. -/
theorem test_no_step : fieldOf id (step testShown) = some testShown ∧ fieldOf id (step testError) = some testError := by
  decide

/-- Index bytes: the hi nibble, the lo nibble, the byte; index 1 passes, index 2 is INDEX_RANGE. -/
theorem test_index_checks :
    fieldOf (·.pos) (exec (.idxNibbleHi 1 9) (testState 2 .check 0)) = some 1 ∧
    fieldOf (·.errIdx) (exec (.idxNibbleLo 1 9) (testState 2 .check 1)) = some 9 ∧
    fieldOf (·.errIdx) (exec (.idxByte 0x2A) (testState 2 .check 0)) = some 42 := by decide

theorem test_index_loads :
    fieldOf (fun t => (t.outOn, t.outOff)) (exec (.idxNibbleHi 1 0) (testState 2 .emit 0)) = some (3, 4) ∧
    fieldOf (fun t => (t.outOn, t.outOff)) (exec (.idxNibbleLo 1 0) (testState 2 .emit 1)) = some (1, 2) ∧
    fieldOf (fun t => (t.outOn, t.outOff)) (exec (.idxByte 1) (testState 2 .emit 0)) = some (3, 4) := by decide

/-- L1 and L3 presented; position 0 of two is not the last. -/
theorem test_entries :
    fieldOf (fun t => (t.outOn, t.outOff, t.outLast)) (exec (.entryTw8 0x80 0x3F) (testState 2 .emit 0))
      = some (128, 63, false) ∧
    fieldOf (fun t => (t.outOn, t.outOff, t.outLast)) (exec (.entryTw16 10000 5000) (testState 2 .emit 1))
      = some (10000, 5000, true) := by decide

/-- The step runs the word placed for it. -/
theorem test_withFetchWord :
    fieldOf (·.hrdata) (step (State.withFetchWord State.reset 8 0x24)) = some 0x00001000 ∧
    fieldOf statusWord (step (State.withFetchWord State.reset 32 0x00000001)) = some 0x00000009 ∧
    fieldOf (fun t => (t.outOn, t.outOff)) (step (State.withFetchWord State.reset 16 0x3F80)) = some (128, 63) := by
  decide

/-! ## Witnesses: the hypotheses of the obligations hold together of concrete states and operands -/

/-- Whether an outcome is a next state. -/
def isNext (o : Host.Outcome State Fault Refusal) : Bool :=
  match o with
  | .next _ => true
  | _ => false

/-- The next state of an outcome. -/
def stateOf (o : Host.Outcome State Fault Refusal) : State :=
  match o with
  | .next t => t
  | _ => State.reset

theorem eq_next {o : Host.Outcome State Fault Refusal} (h : isNext o = true) : o = .next (stateOf o) := by
  cases o <;> first | rfl | cases h

theorem ex_next {o : Host.Outcome State Fault Refusal} (h : isNext o = true) : ∃ t, o = .next t := ⟨_, eq_next h⟩

/-- The run of the test record up to a position in the CHECK pass. -/
theorem runInv_check : RunInv (testState 3 .check 1) := by
  refine ⟨⟨?_, ?_, ?_, ?_, ?_, ?_⟩, ?_, ?_, ?_, ?_, ?_, ?_, ?_, ?_⟩ <;> first | decide | (unfold AllPass; decide)

/-- At its failing position. -/
theorem runInv_check_fail : RunInv (testState 3 .check 2) := by
  refine ⟨⟨?_, ?_, ?_, ?_, ?_, ?_⟩, ?_, ?_, ?_, ?_, ?_, ?_, ?_, ?_⟩ <;> first | decide | (unfold AllPass; decide)

/-- After the failure. -/
theorem runInv_error : RunInv testError := by
  refine ⟨⟨?_, ?_, ?_, ?_, ?_, ?_⟩, ?_, ?_, ?_, ?_, ?_, ?_, ?_, ?_⟩ <;> first | decide | (unfold AllPass; decide)

/-- In the EMIT pass, nothing presented. -/
theorem runInv_emit : RunInv (testState 2 .emit 0) := by
  refine ⟨⟨?_, ?_, ?_, ?_, ?_, ?_⟩, ?_, ?_, ?_, ?_, ?_, ?_, ?_, ?_⟩ <;> first | decide | (unfold AllPass; decide)

/-- With the pair of position 0 presented. -/
theorem runInv_shown : RunInv testShown := by
  refine ⟨⟨?_, ?_, ?_, ?_, ?_, ?_⟩, ?_, ?_, ?_, ?_, ?_, ?_, ?_, ?_⟩ <;> first | decide | (unfold AllPass; decide)

/-- A build with the index latch, at an odd position: the latch holds the byte. -/
def testLatched : State :=
  { testState 3 .check 1 with cfg := { Config.default with latch := true }, latch := 0x10, romReads := [4] }

theorem runInv_latched : RunInv testLatched := by
  refine ⟨⟨?_, ?_, ?_, ?_, ?_, ?_⟩, ?_, ?_, ?_, ?_, ?_, ?_, ?_, ?_⟩ <;> first | decide | (unfold AllPass; decide)

theorem romPortInv_latched : RomPortInv testLatched := by
  refine ⟨?_, ?_, ?_, ?_⟩
  · decide
  · decide
  · intro a ha
    have : a = 4 := by simpa [testLatched] using ha
    exact .inl ⟨0, by decide, by subst this; decide⟩
  · intro _ a ha
    have : a = 4 := by simpa [testLatched] using ha
    exact ⟨1, by decide, by subst this; decide⟩

theorem widthInv_shown : WidthInv testShown := by
  refine ⟨?_, ?_, ?_, ?_, ?_, ?_⟩ <;> decide

/-- A run that reaches the end of the EMIT pass: the record of two positions loaded, started and carried to DONE. -/
def doneScript : List Line := [.expand (.load 0 2 4 2 14 0), lineStart] ++ successSchedule 2

/-- The same in a build with the index latch, with idle turns of the consumer between the steps. -/
def doneScriptLatched : List Line :=
  [.expand (.load 0 2 4 2 14 0), lineStart, lineXfer] ++ successSchedule 2

/-- A run of three positions, the last of which fails. -/
def failScript : List Line := [.expand (.load 0 2 4 3 14 0), lineStart, lineStep, lineStep, lineStep]

def doneState : State := stateOf (core.run 16 { State.resetOf Config.default testRom with script := doneScript })

def doneStateLatched : State :=
  stateOf (core.run 17 { State.resetOf { Config.default with latch := true } testRom with script := doneScriptLatched })

def failState : State := stateOf (core.run 11 { State.resetOf Config.default testRom with script := failScript })

theorem reachable_done : Reachable doneState := ⟨_, _, doneScript, 16, eq_next (by decide +kernel)⟩

theorem reachable_doneLatched : Reachable doneStateLatched := ⟨_, _, doneScriptLatched, 17, eq_next (by decide +kernel)⟩

theorem reachable_fail : Reachable failState := ⟨_, _, failScript, 11, eq_next (by decide +kernel)⟩

theorem witness_EncodedInstructionDecodesBack :
    wellFormed (.cmdReserved 0x03) = true ∧ wellFormed (.wrMode 0xFFFFFFFF) = true ∧ wellFormed (.rdCfg) = true ∧
    wellFormed (.idxNibbleLo 15 15) = true ∧ wellFormed (.entryTw16 0xFFFF 0) = true := by decide

theorem witness_DecodedInstructionIsWellFormed :
    ∃ (f : Format) (bytes rest : List Byte) (i : Instr), decode f bytes = .ok (i, rest) :=
  ⟨.cmd32, [0x03, 0x00, 0x00, 0x00, 0x77], [0x77], .cmdReserved 0x03, rfl⟩

theorem witness_HostAccessIsSelectedByItsWord :
    (0x0C#6).toNat / 4 = (0x0F#6).toNat / 4 ∧ (true = true → (5 : Word) = 5) ∧ (false = true → (5 : Word) = 6) := by decide

theorem witness_StepRunsTheDecodedHostAccess :
    { State.reset with script := [.act (.host false 0x3F 9)] }.script = .act (.host false 0x3F 9) :: [] := rfl

theorem witness_StepRunsTheDecodedIndexByte :
    (∃ s : State, s.seqState = .check ∧ s.pos.toNat < s.work.len.toNat ∧ seqAddr s.work s.pos.toNat < s.cfg.romSize ∧
      s.script = []) ∧
    (∃ s : State, s.seqState = .check ∧ s.cfg.latch = true ∧ s.work.pack = .nibble ∧ s.pos.toNat % 2 = 1 ∧
      s.pos.toNat < s.work.len.toNat ∧ seqAddr s.work s.pos.toNat < s.cfg.romSize ∧ s.script = []) ∧
    (∃ s : State, s.seqState = .emit ∧ s.outValid = false ∧ s.pos.toNat < s.work.len.toNat ∧
      seqAddr s.work s.pos.toNat < s.cfg.romSize ∧ Next s .seq) :=
  ⟨⟨testState 3 .check 2, by decide⟩, ⟨testLatched, by decide⟩,
    ⟨{ testState 2 .emit 1 with script := [lineStep] }, by unfold Next; decide⟩⟩

/-- A clock edge at which everything is asked for. -/
def testEdge (rst : Bool) (hwdata : Word) : EdgeInputs :=
  { rst := rst, hsel := true, hwe := true, haddr := 0, hwdata := hwdata, outReady := true, tick := true }

theorem witness_ResetEdgeDominatesEveryOtherInput :
    (testEdge true 1).rst = true ∧
    { testShown with script := [.expand (.edge (testEdge true 1))] }.script = .expand (.edge (testEdge true 1)) :: [] :=
  ⟨rfl, rfl⟩

theorem witness_EdgeTakesTheHostAccessLast :
    ((testEdge false 1).rst = false ∧ (testEdge false 1).hsel = true ∧ (testEdge false 1).hwe = true ∧
      (testEdge false 1).haddr.toNat / 4 = 0 ∧ (testEdge false 1).hwdata.toNat % 256 = 1 ∧
      (testEdge false 1).tick = true ∧ (testEdge false 2).hwdata.toNat % 256 = 2 ∧
      (testEdge false 2).outReady = true) ∧
    (∃ s : State, s.script = [.expand (.edge (testEdge false 1))] ∧ s.seqState = .emit ∧ s.outValid = false ∧
      s.pos = s.work.len) ∧
    (∃ s : State, s.script = [.expand (.edge (testEdge false 2))] ∧ s.seqState = .emit ∧ s.outValid = true) ∧
    (∃ s : State, s.script = [.expand (.edge (testEdge false 1))] ∧ RunInv s ∧ s.seqState = .check ∧
      s.pos.toNat < s.work.len.toNat ∧ checkPos s.cfg s.rom s.work s.pos.toNat ≠ .ok) :=
  ⟨by decide, ⟨{ testState 2 .emit 2 with script := [.expand (.edge (testEdge false 1))] }, by decide⟩,
    ⟨{ testShown with script := [.expand (.edge (testEdge false 2))] }, by decide⟩,
    ⟨{ testState 3 .check 2 with script := [.expand (.edge (testEdge false 1))] }, rfl,
      RunInv_script runInv_check_fail _, by decide⟩⟩

/-- The smallest and the largest ROM address width. -/
theorem witness_DescriptorWriteStoresTheImplementedBits :
    { Config.default with romAw := 8, romSize := 1 }.wf ∧ { Config.default with romAw := 24, romSize := 2 ^ 24 }.wf := by
  decide

/-- One write and read of each of the six registers, at different byte offsets of its word. -/
theorem witness_WriteThenReadReturnsTheImplementedBits :
    Config.default.wf ∧ (∀ a b : BitVec 6, { State.reset with
      script := [.act (.host true a 0xFFFFFFFF), .act (.host false b 0)] }.script =
        .act (.host true a 0xFFFFFFFF) :: .act (.host false b 0) :: []) ∧
    (0x0C#6).toNat / 4 = 3 ∧ (0x0F#6).toNat / 4 = 3 ∧ (0x10#6).toNat / 4 = 4 ∧ (0x13#6).toNat / 4 = 4 ∧
    (0x14#6).toNat / 4 = 5 ∧ (0x16#6).toNat / 4 = 5 ∧ (0x18#6).toNat / 4 = 6 ∧ (0x19#6).toNat / 4 = 6 ∧
    (0x1C#6).toNat / 4 = 7 ∧ (0x1D#6).toNat / 4 = 7 ∧ (0x20#6).toNat / 4 = 8 ∧ (0x23#6).toNat / 4 = 8 :=
  ⟨by decide, fun _ _ => rfl, by decide⟩

theorem witness_UnmappedAccessReadsZeroAndWritesNothing :
    10 ≤ (0x28#6).toNat / 4 ∧ 10 ≤ (0x3F#6).toNat / 4 ∧ ¬ 10 ≤ (0x27#6).toNat / 4 := by decide

theorem witness_HostReadHasNoSideEffect :
    isHostRead .rdCmd = true ∧ isHostRead .rdStatus = true ∧ isHostRead .rdUnmapped3C = true := by decide

theorem witness_CfgReadReportsTheParameters :
    { State.reset with cfg := { Config.default with tw := .tw16, romAw := 24 } }.cfg.wf := by decide

theorem witness_WriteToCmdCarriesOutTheCommand :
    (0x00#6).toNat / 4 = 0 ∧ (0x03#6).toNat / 4 = 0 ∧ (0x00000100#32).toNat % 256 = 0 ∧
    (0xFFFFFF01#32).toNat % 256 = 1 ∧ (0x00000002#32).toNat % 256 = 2 ∧ 3 ≤ (0x00000003#32).toNat % 256 ∧
    3 ≤ (0x000000FF#32).toNat % 256 := by decide

theorem witness_StartWhileIdleBeginsTheCheckPass :
    State.reset.seqState = .idle ∧ (testState 2 .done 2).seqState = .done ∧ testError.seqState = .error := by decide

theorem witness_NopRejectedStartAndReservedTouchOnlyCmdErr :
    (testState 3 .check 1).seqState = .check ∧ testShown.seqState = .emit ∧ 3 ≤ (0x03#8).toNat ∧ 3 ≤ (0xFF#8).toNat ∧
    (0xFFFFFF00#32).toNat % 256 = 0 := by decide

theorem witness_IndexIsTheNibbleOrByteOfItsPosition :
    (testRecord 3).pack = .nibble ∧ { testRecord 3 with pack := .byte }.pack = .byte ∧ 2 < 3 ∧
    1 < seqBytes (testRecord 3).pack 3 := by decide

theorem witness_EntryFieldsAreUnsignedAndLittleEndian :
    Config.default.tw = .tw8 ∧ { Config.default with tw := .tw16 }.tw = .tw16 := by decide

/-- A ROM of eight bytes: the index byte at 7, just outside at 8; index 1 is the last of two; its entry ends at 8. -/
theorem witness_PositionCheckTestsInOrder :
    (let c := { Config.default with romSize := 8 }
     c.romSize ≤ seqAddr { testRecord 3 with seqBase := 8 } 0 ∧
     seqAddr (testRecord 3) 2 < c.romSize ∧ (testRecord 3).dictN.toNat ≤ (idx testRom (testRecord 3) 2).toNat ∧
     (idx testRom (testRecord 3) 0).toNat + 1 = (testRecord 3).dictN.toNat ∧
     entryAddr c { testRecord 3 with dictBase := 4 } 1 + esz c = c.romSize ∧
     c.romSize < entryAddr c { testRecord 3 with dictBase := 5 } 1 + esz c ∧
     15 < { testRecord 3 with dictN := 16 }.dictN.toNat ∧ 255 < { testRecord 3 with dictN := 256 }.dictN.toNat) := by
  decide

/-- Position 2 of three is the last, its byte is at 5; the other ROM has another lo nibble there. -/
theorem witness_UnusedNibbleHasNoEffect :
    (testRecord 3).pack = .nibble ∧ (testRecord 3).len.toNat % 2 = 1 ∧
    (∀ a, a ≠ seqAddr (testRecord 3) ((testRecord 3).len.toNat - 1) →
      (testRom.write 5 0x2F).read a = testRom.read a) ∧
    ((testRom.write 5 0x2F).read (seqAddr (testRecord 3) ((testRecord 3).len.toNat - 1))).toNat / 16 =
      (testRom.read (seqAddr (testRecord 3) ((testRecord 3).len.toNat - 1))).toNat / 16 := by
  refine ⟨by decide, by decide, fun a ha => ?_, by decide⟩
  have h : a ≠ 5 := ha
  exact Memory.read_write_other (by decide) 0x2F h

theorem witness_CheckedIndexAdvancesThePosition :
    indexOperand (.idxNibbleHi 1 7) = some 1 ∧ (testState 3 .check 0).seqState = .check ∧
    (testState 3 .check 0).pos.toNat < (testState 3 .check 0).work.len.toNat ∧
    (1#8).toNat + 1 = (testState 3 .check 0).work.dictN.toNat ∧
    entryAddr Config.default (testState 3 .check 0).work 1 + esz Config.default ≤ Config.default.romSize := by decide

theorem witness_FailedIndexEntersTheErrorState :
    indexOperand (.idxNibbleLo 0 2) = some 2 ∧ indexOperand (.idxByte 1) = some 1 ∧
    (testState 3 .check 2).seqState = .check ∧
    (testState 3 .check 2).pos.toNat < (testState 3 .check 2).work.len.toNat ∧
    (testState 3 .check 2).work.dictN.toNat = (2#8).toNat ∧ (1#8).toNat < (testState 3 .check 2).work.dictN.toNat ∧
    { Config.default with romSize := 3 }.romSize <
      entryAddr { Config.default with romSize := 3 } (testState 3 .check 2).work 1 +
        esz { Config.default with romSize := 3 } := by decide

theorem witness_EmittedIndexPresentsItsEntry :
    indexOperand (.idxByte 1) = some 1 ∧ (testState 2 .emit 1).seqState = .emit ∧
    (testState 2 .emit 1).outValid = false ∧
    (testState 2 .emit 1).pos.toNat < (testState 2 .emit 1).work.len.toNat ∧
    entryAddr { Config.default with romSize := 4 } (testState 2 .emit 1).work 1 +
      esz { Config.default with romSize := 4 } = 4 := by decide

theorem witness_EntryIsPresentedUnchanged :
    (testState 2 .emit 1).seqState = .emit ∧ (testState 2 .emit 1).outValid = false ∧
    (testState 2 .emit 1).pos.toNat < (testState 2 .emit 1).work.len.toNat := by decide

theorem witness_CheckNextValidatesOnePosition :
    ∃ s : State, RunInv s ∧ Next s .seq ∧ s.seqState = .check ∧ s.pos.toNat < s.work.len.toNat ∧
      checkPos s.cfg s.rom s.work s.pos.toNat = .ok :=
  ⟨{ testState 3 .check 1 with script := [lineStep] }, RunInv_script runInv_check _, rfl, by decide⟩

theorem witness_CheckFailRecordsTheError :
    ∃ (s : State) (code : ErrCode) (k : BitVec 8), RunInv s ∧ Next s .seq ∧ s.seqState = .check ∧
      s.pos.toNat < s.work.len.toNat ∧ checkPos s.cfg s.rom s.work s.pos.toNat = .err code k :=
  ⟨{ testState 3 .check 2 with script := [lineStep] }, .indexRange, 2, RunInv_script runInv_check_fail _, rfl, by decide⟩

theorem witness_EmitLoadPresentsThePair :
    ∃ s : State, RunInv s ∧ Next s .seq ∧ s.seqState = .emit ∧ s.outValid = false ∧
      s.pos.toNat < s.work.len.toNat :=
  ⟨{ testState 2 .emit 0 with script := [lineStep] }, RunInv_script runInv_emit _, rfl, by decide⟩

theorem witness_PassEndsChangeOnlyStateAndPosition :
    (∃ s : State, Next s .seq ∧ s.pos = s.work.len ∧ s.seqState = .check) ∧
    (∃ s : State, Next s .seq ∧ s.pos = s.work.len ∧ s.seqState = .emit ∧ s.outValid = false) :=
  ⟨⟨{ testState 3 .check 3 with script := [lineStep] }, rfl, by decide⟩,
    ⟨{ testState 2 .emit 2 with script := [lineStep] }, rfl, by decide⟩⟩

theorem witness_TransferDeliversThePresentedPair :
    ∃ s : State, Next s .xfer ∧ s.seqState = .emit ∧ s.outValid = true :=
  ⟨{ testShown with script := [lineXfer] }, rfl, by decide⟩

theorem witness_NoStepIsInventedWhereNoneIsEnabled :
    (∀ q, Next { testState 2 q 0 with script := [lineStep] } .seq) ∧ testShown.seqState = .emit ∧
    testShown.outValid = true ∧ (∃ s : State, Next s .xfer ∧ s.seqState ≠ .emit) ∧
    (∃ s : State, Next s .xfer ∧ s.outValid = false) :=
  ⟨fun _ => rfl, by decide, by decide, ⟨{ testError with script := [lineXfer] }, rfl, by decide⟩,
    ⟨{ testState 2 .emit 0 with script := [lineXfer] }, rfl, by decide⟩⟩

/-- A presented pair that stays (a host read), is taken, is withdrawn, is reset away. -/
theorem witness_PresentedPairIsStable :
    StatusInv testShown ∧ testShown.outValid = true ∧
    ∀ l ∈ [lineRd .status, lineXfer, lineAbort, Line.act .rst],
      ∃ t, step { testShown with script := [l] } = .next t := by
  refine ⟨runInv_shown.status, by decide, ?_⟩
  intro l hl
  simp only [List.mem_cons, List.not_mem_nil, or_false] at hl
  rcases hl with rfl | rfl | rfl | rfl <;> exact ex_next (by decide)

theorem witness_PositionStepsByOneOrClears :
    (StatusInv (testState 3 .check 1) ∧ ∃ t, step (testState 3 .check 1) = .next t) ∧
    (StatusInv testShown ∧ ∃ t, step { testShown with script := [lineXfer] } = .next t) :=
  ⟨⟨runInv_check.status, ex_next (by decide)⟩, ⟨runInv_shown.status, ex_next (by decide)⟩⟩

/-- An accepted START and a reset. -/
theorem witness_WorkingRegistersAreWrittenOnlyByStart :
    (∃ t, step { testError with script := [lineStart] } = .next t) ∧
    (∃ t, step { testError with script := [.act .rst] } = .next t) :=
  ⟨ex_next (by decide), ex_next (by decide)⟩

theorem witness_DescriptorRegistersAreWrittenOnlyByTheHost :
    (∃ t, step { testError with script := [lineWr .len 5] } = .next t) ∧
    (∃ t, step { testError with script := [.act .rst] } = .next t) :=
  ⟨ex_next (by decide), ex_next (by decide)⟩

/-- The flag set by a START while busy and by a reserved opcode, cleared by ABORT. -/
theorem witness_CmdErrIsSetAndClearedOnlyByCommands :
    ((testState 3 .check 1).cmdErr = false ∧
      fieldOf (·.cmdErr) (step { testState 3 .check 1 with script := [lineStart] }) = some true) ∧
    fieldOf (·.cmdErr) (step { State.reset with script := [lineWr .cmd 3] }) = some true ∧
    fieldOf (·.cmdErr) (step { State.reset with cmdErr := true, script := [lineAbort] }) = some false ∧
    NextCommand { testState 3 .check 1 with script := [lineStart] } 1 ∧ busy (testState 3 .check 1) = true ∧
    NextCommand { State.reset with script := [lineWr .cmd 3] } 3 :=
  ⟨by decide, by decide, by decide, ⟨0, 1, rfl, by decide, by decide⟩, by decide, ⟨0, 3, rfl, by decide, by decide⟩⟩

theorem witness_ErrorIsLeftOnlyByStartAbortOrReset :
    testError.seqState = .error ∧ ∀ l ∈ [lineStep, lineStart, lineAbort, Line.act .rst],
      ∃ t, step { testError with script := [l] } = .next t := by
  refine ⟨by decide, ?_⟩
  intro l hl
  simp only [List.mem_cons, List.not_mem_nil, or_false] at hl
  rcases hl with rfl | rfl | rfl | rfl <;> exact ex_next (by decide)

theorem witness_RomAndParametersNeverChange : ∃ t, step (testState 3 .check 1) = .next t := ex_next (by decide)

theorem witness_DescriptorWriteDoesNotDisturbTheRun :
    isDescriptorWrite (.wrLen 2) = true ∧
    (∃ u v, exec (.wrLen 2) (testState 3 .check 1) = .next u ∧ act .seq u = .next v) ∧
    (∃ u v, exec (.wrLen 2) testShown = .next u ∧ act .xfer u = .next v) :=
  ⟨by decide, ⟨_, _, rfl, eq_next (by decide)⟩, ⟨_, _, rfl, eq_next (by decide)⟩⟩

theorem witness_LatencyAndBaseAddressHaveNoEffect : ∃ t, step (testState 2 .emit 0) = .next t := ex_next (by decide)

theorem witness_LoadWritesTheSixDescriptorRegisters :
    testShown.cfg.wf ∧ { testShown with script := [.expand (.load 0xFFFFFFFF 511 0 65535 0 1)] }.script =
      .expand (.load 0xFFFFFFFF 511 0 65535 0 1) :: [] := ⟨by decide, rfl⟩

theorem witness_StepKeepsTheStatusInvariants :
    (StatusInv testShown ∧ ∃ t, step { testShown with script := [lineXfer] } = .next t) ∧
    (StatusInv testError ∧ ∃ t, step testError = .next t) :=
  ⟨⟨runInv_shown.status, ex_next (by decide)⟩, ⟨runInv_error.status, ex_next (by decide)⟩⟩

theorem witness_ReachableStatesMeetTheStatusInvariants : Reachable doneState ∧ Reachable failState :=
  ⟨reachable_done, reachable_fail⟩

theorem witness_StepKeepsTheRunInvariant :
    (RunInv (testState 3 .check 2) ∧ ∃ t, step (testState 3 .check 2) = .next t) ∧
    (RunInv (testState 2 .emit 0) ∧ ∃ t, step (testState 2 .emit 0) = .next t) ∧
    (RunInv testLatched ∧ ∃ t, step testLatched = .next t) :=
  ⟨⟨runInv_check_fail, ex_next (by decide)⟩, ⟨runInv_emit, ex_next (by decide)⟩, ⟨runInv_latched, ex_next (by decide)⟩⟩

theorem witness_StepKeepsTheWidths :
    WidthInv testShown ∧ ∃ t, step { testShown with script := [lineWr .dictBase 0xFFFFFFFF] } = .next t :=
  ⟨widthInv_shown, ex_next (by decide)⟩

theorem witness_RunNeverStops : RunInv (testState 2 .emit 0) ∧ RunInv testError := ⟨runInv_emit, runInv_error⟩

theorem witness_DoneRunHasDeliveredEveryPair :
    Reachable doneState ∧ doneState.seqState = .done ∧ doneState.delivered.length = 2 :=
  ⟨reachable_done, by decide +kernel, by decide +kernel⟩

theorem witness_FailedRunHasDeliveredNothing :
    Reachable failState ∧ failState.seqState = .error ∧ failState.pos = 2 :=
  ⟨reachable_fail, by decide +kernel, by decide +kernel⟩

theorem witness_RunReadsOnlyTheBytesOfItsRecord : Reachable doneState ∧ doneState.romReads ≠ [] :=
  ⟨reachable_done, by decide +kernel⟩

/-- Two builds, with and without the latch, under two schedules. -/
theorem witness_FinishedRunsOfOneRecordAgree :
    Reachable doneState ∧ Reachable doneStateLatched ∧ Finished doneState ∧ Finished doneStateLatched ∧
    doneState.cfg.tw = doneStateLatched.cfg.tw ∧ doneState.cfg.romSize = doneStateLatched.cfg.romSize ∧
    (∀ a, doneState.rom.read a = doneStateLatched.rom.read a) ∧ doneState.work = doneStateLatched.work ∧
    doneState.cfg ≠ doneStateLatched.cfg :=
  ⟨reachable_done, reachable_doneLatched, .inl (by decide +kernel), .inl (by decide +kernel), by decide +kernel,
    by decide +kernel, fun a => congrArg (Memory.read · a) (by decide +kernel), by decide +kernel, by decide +kernel⟩

theorem witness_IndexLatchIsUnobservable :
    RunInv testLatched ∧ RomPortInv testLatched ∧ testLatched.cfg.latch = true ∧ ∃ t, step testLatched = .next t :=
  ⟨runInv_latched, romPortInv_latched, by decide, ex_next (by decide)⟩

theorem witness_RunEndsInItsStepCount :
    (∃ s : State, busy s = false ∧ AllPass s.cfg s.rom s.desc ∧ s.desc.len = 2 ∧
      s.script = lineStart :: successSchedule s.desc.len.toNat ++ []) ∧
    (∃ s : State, busy s = false ∧ 2 < s.desc.len.toNat ∧ (∀ i < 2, checkPos s.cfg s.rom s.desc i = .ok) ∧
      checkPos s.cfg s.rom s.desc 2 = .err .indexRange 2 ∧
      s.script = lineStart :: List.replicate 3 (.act .seq) ++ []) :=
  ⟨⟨{ testState 2 .done 2 with script := lineStart :: successSchedule 2 }, by decide, by unfold AllPass; decide, by decide,
      rfl⟩,
    ⟨{ testState 3 .idle 0 with script := lineStart :: List.replicate 3 (.act .seq) }, by decide, by decide, by decide,
      by decide, rfl⟩⟩

theorem witness_RunPseudoOperationDeliversTheRecord :
    (∃ s : State, busy s = false ∧ AllPass s.cfg s.rom s.desc ∧ s.desc.len = 2 ∧ s.script = .expand .run :: []) ∧
    (∃ s : State, busy s = false ∧ 2 < s.desc.len.toNat ∧ (∀ i < 2, checkPos s.cfg s.rom s.desc i = .ok) ∧
      checkPos s.cfg s.rom s.desc 2 = .err .indexRange 2 ∧ s.script = .expand .run :: []) ∧
    (∃ s : State, busy s = false ∧ 0 < s.desc.len.toNat ∧ (∀ i < 0, checkPos s.cfg s.rom s.desc i = .ok) ∧
      checkPos s.cfg s.rom s.desc 0 = .err .indexRange 1 ∧ s.script = .expand .run :: []) :=
  ⟨⟨{ testState 2 .done 2 with script := [.expand .run] }, by decide, by unfold AllPass; decide, by decide, rfl⟩,
    ⟨{ testState 3 .idle 0 with script := [.expand .run] }, by decide, by decide, by decide, by decide, rfl⟩,
    ⟨{ testState 2 .idle 0 with desc := { testRecord 2 with dictN := 1 }, script := [.expand .run] }, by decide,
      by decide, by decide, by decide, rfl⟩⟩

/-- Each clause at its boundary: an ended run, a busy one with and without events left for the gap, a presented pair, and a first
failing position that is the next and the last of the record. -/
theorem witness_PollIsRepeatedStatusReads :
    busy testError = false ∧ busy (testState 2 .emit 0) = true ∧ busy (testState 3 .check 2) = true ∧
    { testShown with script := [.expand (.poll [[.xfer]])] }.script = .expand (.poll ([.xfer] :: [])) :: [] ∧
    (testShown.seqState = .emit ∧ testShown.outValid = true ∧ busy testShown = true) ∧
    (∃ s : State, RunInv s ∧ s.seqState = .check ∧ s.pos.toNat = 2 ∧ s.work.len.toNat = 3 ∧
      (∀ i < 2, checkPos s.cfg s.rom s.work i = .ok) ∧ checkPos s.cfg s.rom s.work 2 = .err .indexRange 2 ∧
      s.script = .expand (.poll []) :: []) :=
  ⟨by decide, by decide, by decide, rfl, by decide,
    ⟨{ testState 3 .check 2 with script := [.expand (.poll [])] }, RunInv_script runInv_check_fail _, by decide, by decide,
      by decide, by decide, by decide, rfl⟩⟩

/-- POLL transfers nothing itself: the presented pair stays, and is taken only where the schedule has the consumer take it. -/
theorem test_pollTransfersNothing :
    fieldOf (fun t => (t.outValid, t.delivered.length)) (core.run 8 { testShown with script := [.expand (.poll [])] }) =
      some (true, 0) ∧
    fieldOf (fun t => (t.outValid, t.delivered.length)) (core.run 4 { testShown with script := [.expand (.poll [[.xfer]])] }) =
      some (false, 1) := by decide

/-- The smallest and the largest legal ROM, with a schedule. -/
theorem witness_ResetMeetsTheInvariants :
    { Config.default with romAw := 8, romSize := 1 }.wf ∧
    { Config.default with tw := .tw16, romAw := 24, romSize := 2 ^ 24, latch := true }.wf ∧
    Memory.wf testRom = true ∧ Memory.wf [] = true := by decide

end Sys2Proof.Tests.Slice0
end

/-! ## The invariants of R44 along every run -/

namespace Sys2Proof.Proofs.StatusInvariants

open Sys2Proof.Machine Sys2Proof.Safety

/-! ### Each update keeps the invariants -/

/-- The invariants of R44 speak of six fields only. -/
theorem statusInv_congr {s t : State} (h : StatusInv s) (hwork : t.work = s.work) (hstate : t.seqState = s.seqState)
    (hcode : t.errCode = s.errCode) (hidx : t.errIdx = s.errIdx) (hpos : t.pos = s.pos)
    (hvalid : t.outValid = s.outValid) : StatusInv t := by
  constructor <;> simp only [hwork, hstate, hcode, hidx, hpos, hvalid]
  exacts [h.posLe, h.valid, h.errCode, h.errIdx, h.done, h.idle]

/-- Outside EMIT nothing is presented (R44). -/
theorem outValid_false_of_not_emit {s : State} (h : StatusInv s) (hs : s.seqState ≠ .emit) : s.outValid = false := by
  by_contra hv
  exact hs (h.valid (by simpa using hv)).1

/-- Outside ERROR both error fields are cleared (R44). -/
theorem error_clear_of_not_error {s : State} (h : StatusInv s) (hs : s.seqState ≠ .error) :
    s.errCode = .none ∧ s.errIdx = 0 :=
  ⟨by_contra fun hc => hs (h.errCode.mp hc), by_contra fun hi => hs (h.errIdx hi)⟩

/-- What reset and ABORT leave (R45, R116) meets the invariants of R44, whatever the working registers hold. -/
theorem statusInv_of_idle {s : State} (hstate : s.seqState = .idle) (hcode : s.errCode = .none) (hidx : s.errIdx = 0)
    (hpos : s.pos = 0) (hvalid : s.outValid = false) : StatusInv s := by
  constructor <;> simp [hstate, hcode, hidx, hpos, hvalid]

/-- CHECK_END (R163). -/
theorem statusInv_endCheck {s : State} (h : StatusInv s) (hs : s.seqState = .check) : StatusInv (endCheck s) := by
  have hv := outValid_false_of_not_emit h (by simp [hs])
  obtain ⟨hcode, hidx⟩ := error_clear_of_not_error h (by simp [hs])
  constructor <;> simp [hv, hcode, hidx]

/-- EMIT_END (R165). -/
theorem statusInv_endEmit {s : State} (h : StatusInv s) (hs : s.seqState = .emit) (hv : s.outValid = false)
    (hp : s.pos = s.work.len) : StatusInv (endEmit s) := by
  obtain ⟨hcode, hidx⟩ := error_clear_of_not_error h (by simp [hs])
  constructor <;> simp [hv, hcode, hidx, hp]

/-- CHECK_FAIL (R162, R203). -/
theorem statusInv_raiseDataIntegrity {s : State} {code : ErrCode} {k : BitVec 8} (h : StatusInv s)
    (hs : s.seqState = .check) (hcode : code ≠ .none) : StatusInv (raiseDataIntegrity code k s) := by
  have hv := outValid_false_of_not_emit h (by simp [hs])
  constructor <;> simp [hv, hcode, h.posLe]

/-- CHECK_NEXT (R161): a position is left, so `POS` neither passes `W_LEN` nor wraps. -/
theorem statusInv_advance {s : State} (h : StatusInv s) (hc : canCheck s = true) : StatusInv (advance s) := by
  obtain ⟨hs, hp⟩ := (canCheck_iff s).mp hc
  have hv := outValid_false_of_not_emit h (by simp [hs])
  obtain ⟨hcode, hidx⟩ := error_clear_of_not_error h (by simp [hs])
  have hsucc := pos_succ hp (len_lt s.work)
  constructor <;> simp [hv, hcode, hidx, hs]
  omega

/-- EMIT_LOAD (R164): a state that differs from a state about to load in `OUT_VALID = 1` only, as far as R44 sees. -/
theorem statusInv_present {s t : State} (h : StatusInv s) (hl : canLoad s = true) (hwork : t.work = s.work)
    (hstate : t.seqState = s.seqState) (hcode : t.errCode = s.errCode) (hidx : t.errIdx = s.errIdx)
    (hpos : t.pos = s.pos) : StatusInv t := by
  obtain ⟨hs, -, hp⟩ := (canLoad_iff s).mp hl
  obtain ⟨hcode', hidx'⟩ := error_clear_of_not_error h (by simp [hs])
  constructor <;> simp [hwork, hstate, hcode, hidx, hpos, hs, hcode', hidx', hp, h.posLe]

/-- A transfer (R167): the presented pair is below `W_LEN`, so `POS` neither passes `W_LEN` nor wraps. -/
theorem statusInv_acceptPair {s : State} (h : StatusInv s) (hv : s.outValid = true) : StatusInv (acceptPair s) := by
  obtain ⟨hs, hp⟩ := h.valid hv
  obtain ⟨hcode, hidx⟩ := error_clear_of_not_error h (by simp [hs])
  have hsucc := pos_succ hp (len_lt s.work)
  constructor <;> simp [hcode, hidx, hs]
  omega

/-! ### Each agent keeps them, so every step and every run does -/

/-- A host access keeps the invariants of R44. -/
theorem statusInv_host {s t : State} {we : Bool} {a : BitVec 6} {d : Word} (h : StatusInv s)
    (ht : act (.host we a d) s = .next t) : StatusInv t := by
  obtain ⟨u, hu, hcases⟩ := host_cases we a d s
  obtain rfl : u = t := by simpa [hu] using ht
  have hcommandError : StatusInv (commandError s) := statusInv_congr h rfl rfl rfl rfl rfl rfl
  rcases hcases with rfl | ⟨v, rfl⟩ | ⟨r, rfl, -, -⟩ | ⟨-, -, hcmd⟩
  · exact h
  · exact statusInv_congr h rfl rfl rfl rfl rfl rfl
  · exact statusInv_congr h rfl rfl rfl rfl rfl rfl
  · rcases hcmd with ⟨-, -, rfl⟩ | ⟨-, -, rfl⟩ | ⟨-, rfl⟩ | ⟨-, rfl⟩
    · exact hcommandError
    · exact (RunInv_startRun s).status
    · exact statusInv_of_idle rfl rfl rfl rfl rfl
    · exact hcommandError

/-- The sequencer's turn keeps the invariants of R44. -/
theorem statusInv_sequencerStep {s t : State} (h : StatusInv s) (ht : sequencerStep exec s = .next t) :
    StatusInv t := by
  have hfetch : StatusInv (afterFetch s) := by
    apply statusInv_congr h <;> simp
  rcases seq_cases ht with
    ⟨rfl, -, -⟩ | ⟨hs, -, rfl⟩ | ⟨hs, hv, hp, rfl⟩ | ⟨hc, -, rfl⟩ | ⟨hc, -, rfl⟩ | ⟨hl, hload, -⟩
  · exact h
  · exact statusInv_endCheck h hs
  · exact statusInv_endEmit h hs hv hp
  · exact statusInv_raiseDataIntegrity h ((canCheck_iff s).mp hc).1 (by simp)
  · rcases checkStep_cases (indexOfByte s.work.pack s.pos.toNat (fetchedByte s)) (afterFetch s) with
      ⟨-, hstep⟩ | ⟨code, hcode, -, hstep⟩ <;> rw [hstep]
    · exact statusInv_advance hfetch (by simpa using hc)
    · exact statusInv_raiseDataIntegrity hfetch (by simpa using ((canCheck_iff s).mp hc).1) hcode
  · obtain ⟨k, -, -, rfl⟩ := loadEntry_afterFetch hl hload
    apply statusInv_present h hl <;> simp

/-- The consumer's turn keeps the invariants of R44. -/
theorem statusInv_consumerStep {s : State} (h : StatusInv s) : StatusInv (consumerStep s) := by
  rcases consumer_cases s with ⟨-, hv, hstep⟩ | ⟨-, hstep⟩ <;> rw [hstep]
  · exact statusInv_acceptPair h hv
  · exact h

/-- Every step, of whichever agent, keeps the invariants of R44. -/
theorem statusInv_step {s t : State} (h : StatusInv s) (ht : step s = .next t) : StatusInv t :=
  step_keeps (fun _ _ _ _ _ h => statusInv_host h) (fun _ _ => statusInv_sequencerStep)
    (fun _ => statusInv_consumerStep) (fun _ _ => statusInv_of_idle rfl rfl rfl rfl rfl)
    (fun _ x h => StatusInv_script h x) s t h ht

/-- The reset state of any build, ROM and schedule meets the invariants of R44 (R45). -/
theorem statusInv_reset (c : Config) (rom : Memory) (script : List Line) :
    StatusInv { State.resetOf c rom with script := script } :=
  statusInv_of_idle rfl rfl rfl rfl rfl

/-- Settles O49: reset meets the invariants, every step keeps them, so every run from reset does. -/
theorem reachableStatesMeetTheStatusInvariants : Obligations.ReachableStatesMeetTheStatusInvariants := by
  rintro s ⟨c, rom, script, n, hrun⟩
  exact run_keeps (fun _ _ => statusInv_step) (statusInv_reset c rom script) hrun

end Sys2Proof.Proofs.StatusInvariants

/-! ## What the passes of a run establish, along every run -/

namespace Sys2Proof.Proofs.RunInvariant

open Sys2Proof.Machine Sys2Proof.Safety Sys2Proof.Proofs.StatusInvariants

/-! ### The index of the position and its check -/

theorem checkPos_of_inside {c : Config} {r : Record} {i : Nat} (rom : Memory) (h : seqAddr r i < c.romSize) :
    checkPos c rom r i = checkIndex c r (idx rom r i) := by
  rw [checkPos, if_neg (by omega)]

theorem checkPos_of_outside {c : Config} {r : Record} {i : Nat} (rom : Memory) (h : c.romSize ≤ seqAddr r i) :
    checkPos c rom r i = .err .romRange 0 := by
  rw [checkPos, if_pos h]

/-- In a state of a run the index fetched is `idx(POS)`, latched or not (R42, R141, R142). -/
theorem indexOfByte_fetchedByte {s : State} (h : RunInv s) (hs : canCheck s = true ∨ canLoad s = true) :
    indexOfByte s.work.pack s.pos.toNat (fetchedByte s) = idx s.rom s.work s.pos.toNat := by
  rw [fetchedByte_eq h hs, idx]

/-- The latch of a build that has one holds the index byte of `POS` (R42): true once that byte has been fetched. -/
def LatchFresh (s : State) : Prop :=
  s.cfg.latch = true → s.work.pack = .nibble → s.latch = s.rom.read (seqAddr s.work s.pos.toNat)

theorem latchFresh_afterFetch {s : State} (h : RunInv s) (hs : canCheck s = true ∨ canLoad s = true) :
    LatchFresh (afterFetch s) := by
  intro hl hp
  simpa using afterFetch_latch_on h hs (by simpa using hl) (by simpa using hp)

/-- Where the next position is odd it shares its byte with `POS`, so a fresh latch serves it too (R42, R140). -/
theorem latch_eq_next {s : State} (hf : LatchFresh s) (hl : s.cfg.latch = true) (hp : s.work.pack = .nibble)
    (hodd : (s.pos.toNat + 1) % 2 = 1) : s.latch = s.rom.read (seqAddr s.work (s.pos.toNat + 1)) := by
  rw [seqAddr_odd s.work s.pos.toNat hp (by omega)]
  exact hf hl hp

/-! ### Each update keeps the invariant -/

/-- The run invariant does not look at the descriptor, `CMDERR`, the ROM port and `hrdata`. -/
theorem runInv_unseen {s : State} (h : RunInv s) (d : Record) (e en : Bool) (v : Word) (reads : List Nat) :
    RunInv { s with desc := d, cmdErr := e, romEn := en, hrdata := v, romReads := reads } :=
  ⟨statusInv_congr h.status rfl rfl rfl rfl rfl rfl, h.checked, h.passed, h.failed, h.quiet, h.sent, h.shown,
    h.aborted, h.latched⟩

/-- What reset and ABORT leave (R45, R116, R236), whatever the working registers hold. -/
theorem runInv_of_idle {s : State} (hstate : s.seqState = .idle) (hcode : s.errCode = .none) (hidx : s.errIdx = 0)
    (hpos : s.pos = 0) (hvalid : s.outValid = false) (hsent : s.delivered <+: expectedRun s.cfg s.rom s.work) :
    RunInv s := by
  refine ⟨statusInv_of_idle hstate hcode hidx hpos hvalid, ?_, ?_, ?_, ?_, ?_, ?_, fun _ => hsent, ?_⟩ <;>
    simp [hstate, hvalid]

/-- In every state of a run the pairs transferred are the first ones of the record's sequence (R170, R171, R236). -/
theorem delivered_isPrefix {s : State} (h : RunInv s) : s.delivered <+: expectedRun s.cfg s.rom s.work := by
  cases hs : s.seqState with
  | idle => exact h.aborted hs
  | check => simp [h.quiet (.inl hs)]
  | emit => rw [h.sent (.inl hs)]; exact List.take_prefix _ _
  | done => rw [h.sent (.inr hs)]; exact List.take_prefix _ _
  | error => simp [h.quiet (.inr hs)]

/-- The fetch of an index byte. -/
theorem runInv_afterFetch {s : State} (h : RunInv s) (hs : canCheck s = true ∨ canLoad s = true) :
    RunInv (afterFetch s) := by
  have hstatus : StatusInv (afterFetch s) := by
    apply statusInv_congr h.status <;> simp
  refine ⟨hstatus, ?_, ?_, ?_, ?_, ?_, ?_, ?_, fun hl hp _ _ => latchFresh_afterFetch h hs hl hp⟩
  · simpa using h.checked
  · simpa using h.passed
  · simpa using h.failed
  · simpa using h.quiet
  · simpa using h.sent
  · simpa [presented] using h.shown
  · simpa using h.aborted

/-- CHECK_NEXT (R161): the position that passed joins those below `POS`. -/
theorem runInv_advance {s : State} (h : RunInv s) (hc : canCheck s = true)
    (hok : checkPos s.cfg s.rom s.work s.pos.toNat = .ok) (hf : LatchFresh s) : RunInv (advance s) := by
  obtain ⟨hs, hp⟩ := (canCheck_iff s).mp hc
  have hv := outValid_false_of_not_emit h.status (by simp [hs])
  have hsucc := pos_succ hp (len_lt s.work)
  refine ⟨statusInv_advance h.status hc, ?checked, ?_, ?_, ?_, ?_, ?_, ?_, ?latched⟩
  case checked =>
    simp only [advance_pos, hsucc]
    intro _ i hi
    rcases Nat.lt_succ_iff_lt_or_eq.mp hi with hlt | rfl
    · exact h.checked hs i hlt
    · exact hok
  case latched =>
    simp only [advance_pos, advance_outValid, hsucc, hv]
    intro hl hpk _ hodd
    exact latch_eq_next hf hl hpk (by simpa using hodd)
  all_goals simp [hs, hv, h.quiet (.inl hs)]

/-- CHECK_FAIL (R162, R203): `POS` is the first position that failed. -/
theorem runInv_raiseDataIntegrity {s : State} {code : ErrCode} {k : BitVec 8} (h : RunInv s) (hc : canCheck s = true)
    (herr : checkPos s.cfg s.rom s.work s.pos.toNat = .err code k) : RunInv (raiseDataIntegrity code k s) := by
  obtain ⟨hs, hp⟩ := (canCheck_iff s).mp hc
  have hv := outValid_false_of_not_emit h.status (by simp [hs])
  refine ⟨statusInv_raiseDataIntegrity h.status hs (checkPos_err herr), ?_, ?_,
    fun _ => ⟨hp, h.checked hs, herr⟩, ?_, ?_, ?_, ?_, ?_⟩ <;> simp [hv, h.quiet (.inl hs)]

/-- CHECK_END (R163): every position has passed, and the output pass begins with nothing sent. -/
theorem runInv_endCheck {s : State} (h : RunInv s) (hs : s.seqState = .check) (hp : s.pos = s.work.len) :
    RunInv (endCheck s) := by
  have hv := outValid_false_of_not_emit h.status (by simp [hs])
  have hpass : AllPass s.cfg s.rom s.work := fun i hi => h.checked hs i (by rw [hp]; exact hi)
  refine ⟨statusInv_endCheck h.status hs, ?_, fun _ => hpass, ?_, ?_, ?_, ?_, ?_, ?_⟩ <;>
    simp [hv, h.quiet (.inl hs)]

/-- EMIT_END (R165). -/
theorem runInv_endEmit {s : State} (h : RunInv s) (hs : s.seqState = .emit) (hv : s.outValid = false)
    (hp : s.pos = s.work.len) : RunInv (endEmit s) := by
  refine ⟨statusInv_endEmit h.status hs hv hp, ?_, fun _ => h.passed (.inl hs), ?_, ?_, fun _ => h.sent (.inl hs),
    ?_, ?_, ?_⟩ <;> simp [hv]

/-- What the consumer is shown once the pair of `POS` has been presented (R164, R167). -/
theorem presented_emitPair (s : State) :
    presented (emitPair (pair s.cfg s.rom s.work s.pos.toNat).1 (pair s.cfg s.rom s.work s.pos.toNat).2
      (decide (s.pos.toNat + 1 = s.work.len.toNat)) s) = expectedTransfer s.cfg s.rom s.work s.pos.toNat := by
  simp [presented, expectedTransfer]

/-- EMIT_LOAD (R164): the pair of `POS` is presented. -/
theorem runInv_emitPair {s : State} (h : RunInv s) (hl : canLoad s = true) (hf : LatchFresh s) :
    RunInv (emitPair (pair s.cfg s.rom s.work s.pos.toNat).1 (pair s.cfg s.rom s.work s.pos.toNat).2
      (decide (s.pos.toNat + 1 = s.work.len.toNat)) s) := by
  obtain ⟨hs, -, -⟩ := (canLoad_iff s).mp hl
  refine ⟨statusInv_present h.status hl rfl rfl rfl rfl rfl, ?_, fun _ => h.passed (.inl hs), ?_, ?_,
    fun _ => h.sent (.inl hs), fun _ => presented_emitPair s, ?_, fun hlatch hp _ _ => hf hlatch hp⟩ <;> simp [hs]

/-- A transfer (R167): the presented pair is the next of the record's sequence. -/
theorem runInv_acceptPair {s : State} (h : RunInv s) (hv : s.outValid = true) : RunInv (acceptPair s) := by
  obtain ⟨hs, hp⟩ := h.status.valid hv
  have hsucc := pos_succ hp (len_lt s.work)
  have hf : LatchFresh s := fun hl hpk => h.latched hl hpk (.inr hs) (.inr hv)
  refine ⟨statusInv_acceptPair h.status hv, ?_, fun _ => h.passed (.inl hs), ?_, ?_, ?sent, ?_, ?_, ?latched⟩
  case sent =>
    intro _
    simp only [acceptPair_delivered, acceptPair_cfg, acceptPair_rom, acceptPair_work, acceptPair_pos, hsucc]
    rw [take_succ_expectedRun _ _ _ hp, ← h.sent (.inl hs), h.shown hv]
  case latched =>
    simp only [acceptPair_pos, acceptPair_outValid, hsucc]
    intro hl hpk _ hodd
    exact latch_eq_next hf hl hpk (by simpa using hodd)
  all_goals simp [hs]

/-! ### Each agent keeps it, so every step and every run does -/

/-- A host access keeps the run invariant. -/
theorem runInv_host {s t : State} {we : Bool} {a : BitVec 6} {d : Word} (h : RunInv s)
    (ht : act (.host we a d) s = .next t) : RunInv t := by
  obtain ⟨u, hu, hcases⟩ := host_cases we a d s
  obtain rfl : u = t := by simpa [hu] using ht
  have hcommandError : RunInv (commandError s) := runInv_unseen h s.desc true s.romEn s.hrdata s.romReads
  rcases hcases with rfl | ⟨v, rfl⟩ | ⟨r, rfl, -, -⟩ | ⟨-, -, hcmd⟩
  · exact h
  · exact runInv_unseen h s.desc s.cmdErr s.romEn v s.romReads
  · exact runInv_unseen h r s.cmdErr s.romEn s.hrdata s.romReads
  · rcases hcmd with ⟨-, -, rfl⟩ | ⟨-, -, rfl⟩ | ⟨-, rfl⟩ | ⟨-, rfl⟩
    · exact hcommandError
    · exact RunInv_startRun s
    · exact runInv_of_idle rfl rfl rfl rfl rfl (delivered_isPrefix h :)
    · exact hcommandError

/-- A turn of the CHECK pass whose index byte was fetched keeps the run invariant (R161, R162). -/
theorem runInv_checkStep {s : State} (h : RunInv s) (hc : canCheck s = true)
    (ha : seqAddr s.work s.pos.toNat < s.cfg.romSize) :
    RunInv (checkStep (indexOfByte s.work.pack s.pos.toNat (fetchedByte s)) (afterFetch s)) := by
  have hfetch := runInv_afterFetch h (.inl hc)
  have hpos : checkPos (afterFetch s).cfg (afterFetch s).rom (afterFetch s).work (afterFetch s).pos.toNat =
      checkIndex (afterFetch s).cfg (afterFetch s).work (indexOfByte s.work.pack s.pos.toNat (fetchedByte s)) := by
    simpa [indexOfByte_fetchedByte h (.inl hc)] using checkPos_of_inside s.rom ha
  rcases checkStep_cases (indexOfByte s.work.pack s.pos.toNat (fetchedByte s)) (afterFetch s) with
    ⟨hok, hstep⟩ | ⟨code, -, herr, hstep⟩ <;> rw [hstep]
  · exact runInv_advance hfetch (by simpa using hc) (hpos.trans hok) (latchFresh_afterFetch h (.inl hc))
  · exact runInv_raiseDataIntegrity hfetch (by simpa using hc) (hpos.trans herr)

/-- The sequencer's turn keeps the run invariant. -/
theorem runInv_sequencerStep {s t : State} (h : RunInv s) (ht : sequencerStep exec s = .next t) : RunInv t := by
  rcases seq_cases ht with
    ⟨rfl, -, -⟩ | ⟨hs, hp, rfl⟩ | ⟨hs, hv, hp, rfl⟩ | ⟨hc, ha, rfl⟩ | ⟨hc, ha, rfl⟩ | ⟨hl, hload, -⟩
  · exact h
  · exact runInv_endCheck h hs hp
  · exact runInv_endEmit h hs hv hp
  · exact runInv_raiseDataIntegrity h hc (checkPos_of_outside s.rom ha)
  · exact runInv_checkStep h hc ha
  · obtain ⟨k, hk, -, rfl⟩ := loadEntry_afterFetch hl hload
    obtain rfl := hk.trans (indexOfByte_fetchedByte h (.inr hl))
    have hemit := runInv_emitPair (runInv_afterFetch h (.inr hl)) (by simpa using hl)
      (latchFresh_afterFetch h (.inr hl))
    simp only [afterFetch_cfg, afterFetch_rom, afterFetch_work, afterFetch_pos] at hemit
    exact runInv_unseen hemit _ _ false _ _

/-- The consumer's turn keeps the run invariant. -/
theorem runInv_consumerStep {s : State} (h : RunInv s) : RunInv (consumerStep s) := by
  rcases consumer_cases s with ⟨-, hv, hstep⟩ | ⟨-, hstep⟩ <;> rw [hstep]
  · exact runInv_acceptPair h hv
  · exact h

/-- Reset of any state meets the run invariant (R230). -/
theorem runInv_applyReset (s : State) : RunInv (applyReset s) :=
  runInv_of_idle rfl rfl rfl rfl rfl List.nil_prefix

/-- Every step, of whichever agent, keeps the run invariant. -/
theorem runInv_step {s t : State} (h : RunInv s) (ht : step s = .next t) : RunInv t :=
  step_keeps (fun _ _ _ _ _ h => runInv_host h) (fun _ _ => runInv_sequencerStep)
    (fun _ => runInv_consumerStep) (fun s _ => runInv_applyReset s) (fun _ x h => RunInv_script h x) s t h ht

/-- The reset state of any build, ROM and schedule meets the run invariant (R45). -/
theorem runInv_reset (c : Config) (rom : Memory) (script : List Line) :
    RunInv { State.resetOf c rom with script := script } :=
  runInv_of_idle rfl rfl rfl rfl rfl List.nil_prefix

/-- Every reachable state meets the run invariant. -/
theorem runInv_of_reachable {s : State} (h : Reachable s) : RunInv s := by
  obtain ⟨c, rom, script, n, hrun⟩ := h
  exact run_keeps (fun _ _ => runInv_step) (runInv_reset c rom script) hrun

end Sys2Proof.Proofs.RunInvariant

/-! ## Which ROM bytes a run reads -/

namespace Sys2Proof.Proofs.RomReads

open Sys2Proof.Machine Sys2Proof.Safety Sys2Proof.Proofs.RunInvariant

/-! ### Each update keeps the claim -/

/-- A state that has read nothing since its run began. -/
theorem romPortInv_of_no_reads {s : State} (hen : s.romEn = false) (hreads : s.romReads = []) : RomPortInv s := by
  constructor <;> simp [hen, hreads]

/-- Without a new read the claim stays, as long as `POS` does not fall in CHECK or on the way to ERROR. -/
theorem romPortInv_of_same_reads {s t : State} (h : RomPortInv s) (hcfg : t.cfg = s.cfg) (hrom : t.rom = s.rom)
    (hwork : t.work = s.work) (hen : t.romEn = s.romEn) (hreads : t.romReads = s.romReads)
    (hcheck : t.seqState = .check ∨ t.seqState = .error →
      (s.seqState = .check ∨ s.seqState = .error) ∧ s.pos.toNat ≤ t.pos.toNat) : RomPortInv t := by
  constructor <;> simp only [hcfg, hrom, hwork, hen, hreads]
  · exact h.idle
  · exact h.inside
  · exact h.needed
  · intro ht a ha
    obtain ⟨hs, hle⟩ := hcheck ht
    obtain ⟨i, hi, hai⟩ := h.checkOnly hs a ha
    exact ⟨i, hi.trans hle, hai⟩

/-- The fetch of the index byte of a position adds at most that byte, which is in the ROM (R67, R74). -/
theorem romPortInv_afterFetch {s : State} (h : RomPortInv s) (hp : s.pos.toNat < s.work.len.toNat)
    (ha : latchHolds s = true ∨ seqAddr s.work s.pos.toNat < s.cfg.romSize) : RomPortInv (afterFetch s) := by
  by_cases hlatch : latchHolds s = true
  · rw [afterFetch_latched hlatch]
    exact h
  have hin := ha.resolve_left hlatch
  refine ⟨afterFetch_romEn h.idle, ?_, ?_, ?_⟩ <;>
    simp only [afterFetch_cfg, afterFetch_rom, afterFetch_work, afterFetch_seqState, afterFetch_pos]
  · intro a hmem
    rcases afterFetch_mem_romReads hmem with hold | rfl
    · exact h.inside a hold
    · exact hin
  · intro a hmem
    rcases afterFetch_mem_romReads hmem with hold | rfl
    · exact h.needed a hold
    · exact .inl (seqAddr_in s.work hp)
  · intro hs a hmem
    rcases afterFetch_mem_romReads hmem with hold | rfl
    · exact h.checkOnly hs a hold
    · exact ⟨s.pos.toNat, le_rfl, rfl⟩

/-- The reading of the entry of a position that passed its check, in the EMIT pass (R74, R145, R146). -/
theorem romPortInv_entryReads {s : State} (h : RomPortInv s) (hs : s.seqState = .emit) {i : Nat}
    (hi : i < s.work.len.toNat) (hok : checkPos s.cfg s.rom s.work i = .ok) :
    RomPortInv { s with
      romEn := false
      romReads := s.romReads ++
        (List.range (esz s.cfg)).map (entryAddr s.cfg s.work (idx s.rom s.work i) + ·) } := by
  obtain ⟨-, hdict, hentry⟩ := (checkPos_ok_iff _ _ _ _).mp hok
  constructor <;> simp only [List.mem_append, List.mem_map, List.mem_range]
  · rintro a (hold | ⟨t, ht, rfl⟩)
    · exact h.inside a hold
    · omega
  · rintro a (hold | ⟨t, ht, rfl⟩)
    · exact h.needed a hold
    · exact .inr ⟨i, hi, hdict, t, ht, rfl⟩
  · simp [hs]

/-! ### Each agent keeps it, so every run does -/

/-- The host has no way to the ROM: its accesses read nothing, and a START begins the record anew (R60). -/
theorem romPortInv_host {s t : State} {we : Bool} {a : BitVec 6} {d : Word} (h : RomPortInv s)
    (ht : act (.host we a d) s = .next t) : RomPortInv t := by
  obtain ⟨u, hu, hcases⟩ := host_cases we a d s
  obtain rfl : u = t := by simpa [hu] using ht
  have hcommandError : RomPortInv (commandError s) :=
    romPortInv_of_same_reads h rfl rfl rfl rfl rfl fun hs => ⟨hs, le_rfl⟩
  rcases hcases with rfl | ⟨v, rfl⟩ | ⟨r, rfl, -, -⟩ | ⟨-, -, hcmd⟩
  · exact h
  · exact romPortInv_of_same_reads h rfl rfl rfl rfl rfl fun hs => ⟨hs, le_rfl⟩
  · exact romPortInv_of_same_reads h rfl rfl rfl rfl rfl fun hs => ⟨hs, le_rfl⟩
  · rcases hcmd with ⟨-, -, rfl⟩ | ⟨-, -, rfl⟩ | ⟨-, rfl⟩ | ⟨-, rfl⟩
    · exact hcommandError
    · exact romPortInv_of_no_reads h.idle rfl
    · exact romPortInv_of_same_reads h rfl rfl rfl rfl rfl (by simp)
    · exact hcommandError

/-- A turn of the CHECK pass reads the index byte of `POS` and nothing more, whether the position passes or fails
(R161, R162). -/
theorem romPortInv_checkStep {s : State} (h : RomPortInv s) (hc : canCheck s = true)
    (ha : seqAddr s.work s.pos.toNat < s.cfg.romSize) (k : BitVec 8) : RomPortInv (checkStep k (afterFetch s)) := by
  obtain ⟨hs, hp⟩ := (canCheck_iff s).mp hc
  have hfetch := romPortInv_afterFetch h hp (.inr ha)
  rcases checkStep_cases k (afterFetch s) with ⟨-, hstep⟩ | ⟨code, -, -, hstep⟩ <;> rw [hstep]
  · have hle : (afterFetch s).pos.toNat ≤ (advance (afterFetch s)).pos.toNat := by
      rw [advance_pos, afterFetch_pos, pos_succ hp (len_lt s.work)]
      omega
    exact romPortInv_of_same_reads hfetch rfl rfl rfl rfl rfl fun _ => ⟨by simp [hs], hle⟩
  · exact romPortInv_of_same_reads hfetch rfl rfl rfl rfl rfl fun _ => ⟨by simp [hs], le_rfl⟩

/-- The sequencer's turn reads only what R74 allows: the run invariant says that a position of the EMIT pass has passed its
check, and that the index taken from the latch is the position's. -/
theorem romPortInv_sequencerStep {s t : State} (hrun : RunInv s) (h : RomPortInv s)
    (ht : sequencerStep exec s = .next t) : RomPortInv t := by
  rcases seq_cases ht with
    ⟨rfl, -, -⟩ | ⟨-, -, rfl⟩ | ⟨-, -, -, rfl⟩ | ⟨hc, -, rfl⟩ | ⟨hc, ha, rfl⟩ | ⟨hl, hload, ha⟩
  · exact h
  · exact romPortInv_of_same_reads h rfl rfl rfl rfl rfl (by simp)
  · exact romPortInv_of_same_reads h rfl rfl rfl rfl rfl (by simp)
  · exact romPortInv_of_same_reads h rfl rfl rfl rfl rfl fun _ => ⟨.inl ((canCheck_iff s).mp hc).1, le_rfl⟩
  · exact romPortInv_checkStep h hc ha _
  · obtain ⟨hs, -, hp⟩ := (canLoad_iff s).mp hl
    obtain ⟨k, hk, -, rfl⟩ := loadEntry_afterFetch hl hload
    obtain rfl := hk.trans (indexOfByte_fetchedByte hrun (.inr hl))
    have hreads := romPortInv_entryReads (i := s.pos.toNat) (romPortInv_afterFetch h hp ha) (by simpa using hs)
      (by simpa using hp) (by simpa using hrun.passed (.inl hs) _ hp)
    exact romPortInv_of_same_reads hreads rfl rfl rfl rfl (by simp) (by simp [hs])

/-- The consumer's turn reads nothing. -/
theorem romPortInv_consumerStep {s : State} (h : RomPortInv s) : RomPortInv (consumerStep s) := by
  rcases consumer_cases s with ⟨hs, -, hstep⟩ | ⟨-, hstep⟩ <;> rw [hstep]
  · exact romPortInv_of_same_reads h rfl rfl rfl rfl rfl (by simp [hs])
  · exact h

/-- Every step of a run reads only what R74 allows. -/
theorem romPortInv_step {s t : State} (hrun : RunInv s) (h : RomPortInv s) (ht : step s = .next t) : RomPortInv t :=
  (step_keeps (P := fun s => RunInv s ∧ RomPortInv s)
    (fun _ _ _ _ _ h ht => ⟨runInv_host h.1 ht, romPortInv_host h.2 ht⟩)
    (fun _ _ h ht => ⟨runInv_sequencerStep h.1 ht, romPortInv_sequencerStep h.1 h.2 ht⟩)
    (fun _ h => ⟨runInv_consumerStep h.1, romPortInv_consumerStep h.2⟩)
    (fun s _ => ⟨runInv_applyReset s, romPortInv_of_no_reads rfl rfl⟩)
    (fun _ x h => ⟨RunInv_script h.1 x, RomPortInv_script h.2 x⟩) s t ⟨hrun, h⟩ ht).2

/-- Settles O55: together with the run invariant the claim holds at reset and every step keeps it, so every run from reset
does. -/
theorem runReadsOnlyTheBytesOfItsRecord : Obligations.RunReadsOnlyTheBytesOfItsRecord := by
  rintro s ⟨c, rom, script, n, hrun⟩
  have hreset : RomPortInv { State.resetOf c rom with script := script } := romPortInv_of_no_reads rfl rfl
  exact (run_keeps (P := fun s => RunInv s ∧ RomPortInv s)
    (fun _ _ h ht => ⟨runInv_step h.1 ht, romPortInv_step h.1 h.2 ht⟩) ⟨runInv_reset c rom script, hreset⟩ hrun).2

end Sys2Proof.Proofs.RomReads

/-! ## The commands of a write to CMD -/

namespace Sys2Proof.Proofs.Commands

open Sys2Proof.Machine

/-- The opcode field of a command word, compared as numbers. -/
theorem opcode_eq_iff (w : Word) (op : BitVec 8) : w.extractLsb' 0 8 = op ↔ w.toNat % 256 = op.toNat := by
  rw [← BitVec.toNat_inj, opcode_toNat]

/-- The command of a word by the number in its bits [7:0], whatever bits [31:8] hold (R82, R83). -/
theorem decodeCmd_by_opcode (w : Word) :
    decodeCmd w =
      if w.toNat % 256 = 0 then .nop
      else if w.toNat % 256 = 1 then .start
      else if w.toNat % 256 = 2 then .abort
      else .cmdReserved (BitVec.ofNat 8 w.toNat) := by
  have hop : w.extractLsb' 0 8 = BitVec.ofNat 8 w.toNat := (opcode_eq_iff w _).mpr (by simp)
  simp [decodeCmd, opcode_eq_iff, ← hop]

/-- A write to CMD does what the instruction of its data word does (R82). -/
theorem exec_wrCmd (d : Word) (s : State) : exec (.wrCmd d) s = exec (decodeCmd d) s := by
  change execWrCmd d s = _
  rw [execWrCmd, decodeCmd_by_opcode]
  split_ifs <;> rfl

/-- A write to CMD has a next state in every state, as every host access has. -/
theorem exec_wrCmd_completes (d : Word) (s : State) : ∃ t, exec (.wrCmd d) s = .next t := by
  obtain ⟨t, ht, -⟩ := host_cases true 0 d s
  exact ⟨t, by rw [← ht, act_command d s rfl]⟩

/-- Settles O19: the access is WR CMD by its word number, and its command is the one `decodeCmd` reads off bits [7:0]. -/
theorem writeToCmdCarriesOutTheCommand : Obligations.WriteToCmdCarriesOutTheCommand := by
  intro s haddr d hword
  have hrun {i : Instr} (hdec : decodeCmd d = i) : decodeCmd d = i ∧ exec (.wrCmd d) s = exec i s :=
    ⟨hdec, hdec ▸ exec_wrCmd d s⟩
  refine ⟨by simp only [decodeHost_cases, hword], fun hop => hrun ?_, fun hop => hrun ?_, fun hop => hrun ?_,
    fun hop => hrun ?_, exec_wrCmd_completes d s⟩
  · simp [decodeCmd_by_opcode, hop]
  · simp [decodeCmd_by_opcode, hop]
  · simp [decodeCmd_by_opcode, hop]
  · rw [decodeCmd_by_opcode, if_neg (by omega), if_neg (by omega), if_neg (by omega)]

end Sys2Proof.Proofs.Commands

/-! ## The host interface: writes, reads and commands -/

namespace Sys2Proof.Proofs.HostInterface

open Sys2Proof.Machine Sys2Proof.Safety

/-! ### Bit fields as numbers -/

/-- Two fields side by side, as a number. -/
theorem append_toNat {m n : Nat} (x : BitVec m) (y : BitVec n) : (x ++ y).toNat = 2 ^ n * x.toNat + y.toNat := by
  rw [BitVec.toNat_append, Nat.shiftLeft_eq, Nat.mul_comm, ← Nat.two_pow_add_eq_or_of_lt y.isLt]

@[simp] theorem bit_toNat (b : Bool) : (bit b).toNat = b.toNat := BitVec.toNat_ofBool b

/-- The word of STATUS as the sum of its fields at their places (R25, R119). -/
theorem statusWord_toNat (s : State) :
    (statusWord s).toNat = 65536 * s.errIdx.toNat + 512 * s.outValid.toNat + 256 * s.cmdErr.toNat +
      16 * (errCodeCode s.errCode).toNat + 8 * (busy s).toNat + (seqStateCode s.seqState).toNat := by
  simp only [statusWord, append_toNat, bit_toNat, BitVec.toNat_ofNat]
  omega

/-- The word of CFG as a number: `ROM_AW` has five bits in every legal build (R37, R121). -/
theorem cfgWord_toNat {c : Config} (h : c.romAw ≤ 24) :
    (cfgWord c).toNat = 256 * c.romAw + if c.tw = .tw16 then 1 else 0 := by
  have htw : (decide (c.tw = .tw16)).toNat = if c.tw = .tw16 then 1 else 0 := by cases c.tw <;> rfl
  simp only [cfgWord, append_toNat, bit_toNat, BitVec.toNat_ofNat, htw]
  omega

/-- The low `n` bits of a data word, as a register of `n` bits stores them (R105, R107, R108). -/
theorem lowBits_eq_ofNat (n : Nat) (d : Word) : d.extractLsb' 0 n = BitVec.ofNat n d.toNat := rfl

/-- Bit 0 of a data word selects the packing (R31, R103). -/
theorem packOfBit_word (d : Word) : packOfBit (d.getLsbD 0) = if d.toNat % 2 = 1 then .byte else .nibble := by
  rw [BitVec.getLsbD, Nat.testBit_zero]
  by_cases h : d.toNat % 2 = 1 <;> simp [h, packOfBit]

/-- MODE as a read shows it (R112). -/
theorem packBit_word (p : Packing) : (bit (packBit p)).setWidth 32 = if p = .byte then (1 : Word) else 0 := by
  cases p <;> rfl

/-! ### Reads -/

/-- What a host read returns (R110 to R112, R119 to R121). -/
def readValue : Instr → State → Word
  | .rdStatus, s => statusWord s
  | .rdPos, s => s.pos.setWidth 32
  | .rdMode, s => (bit (packBit s.desc.pack)).setWidth 32
  | .rdDictBase, s => s.desc.dictBase.setWidth 32
  | .rdDictN, s => s.desc.dictN.setWidth 32
  | .rdSeqBase, s => s.desc.seqBase.setWidth 32
  | .rdLen, s => s.desc.len.setWidth 32
  | .rdCarrier, s => s.desc.carrier.setWidth 32
  | .rdCfg, s => cfgWord s.cfg
  | _, _ => 0

/-- A host read puts its value on `hrdata` and does nothing else. -/
theorem exec_read {i : Instr} (h : isHostRead i = true) (s : State) :
    exec i s = .next (hostRead (readValue i s) s) := by
  cases i with
  | rdCmd | rdStatus | rdPos | rdMode | rdDictBase | rdDictN | rdSeqBase | rdLen | rdCarrier | rdCfg => rfl
  | rdUnmapped28 | rdUnmapped2C | rdUnmapped30 | rdUnmapped34 | rdUnmapped38 | rdUnmapped3C => rfl
  | _ => exact absurd h Bool.false_ne_true

/-- What a read returns does not depend on what stands on `hrdata`. -/
theorem readValue_hostRead (i : Instr) (v : Word) (s : State) : readValue i (hostRead v s) = readValue i s := by
  cases i <;> rfl

/-- Settles O17: the word of STATUS is the sum of its fields, each with the code of R26 or R27 its value has. -/
theorem statusReadHasTheLayoutOfTheRule : Obligations.StatusReadHasTheLayoutOfTheRule := by
  intro s d
  refine ⟨decodeHost_cases false 0x04 d, statusWord s, exec_read rfl s, ?_⟩
  rw [statusWord_toNat]
  congr 2
  · congr 2
    cases s.errCode <;> rfl
  · congr 1
    simp only [← busy_iff]
    cases busy s <;> rfl
  · cases s.seqState <;> rfl

/-- Settles O15: the value a read puts on `hrdata` does not depend on what stood there. -/
theorem hostReadHasNoSideEffect : Obligations.HostReadHasNoSideEffect := by
  intro i s h
  have hagain := exec_read h (hostRead (readValue i s) s)
  rw [readValue_hostRead] at hagain
  exact ⟨readValue i s, exec_read h s, hagain⟩

/-- Settles O16: each read by its word number, its value a stored field zero-extended. -/
theorem registerReadReturnsTheStoredField : Obligations.RegisterReadReturnsTheStoredField := by
  intro s d
  simp only [BitVec.ofNat_toNat, ← packBit_word]
  exact ⟨⟨decodeHost_cases false 0x00 d, exec_read rfl s⟩,
    ⟨decodeHost_cases false 0x08 d, exec_read rfl s⟩,
    ⟨decodeHost_cases false 0x0C d, exec_read rfl s⟩,
    ⟨decodeHost_cases false 0x10 d, exec_read rfl s⟩,
    ⟨decodeHost_cases false 0x14 d, exec_read rfl s⟩,
    ⟨decodeHost_cases false 0x18 d, exec_read rfl s⟩,
    ⟨decodeHost_cases false 0x1C d, exec_read rfl s⟩,
    ⟨decodeHost_cases false 0x20 d, exec_read rfl s⟩⟩

/-- Settles O18: a legal build has `ROM_AW` at most 24, so the five bits of CFG hold it. -/
theorem cfgReadReportsTheParameters : Obligations.CfgReadReportsTheParameters := by
  rintro s d ⟨-, hromAw, -⟩
  exact ⟨decodeHost_cases false 0x24 d, cfgWord s.cfg, exec_read rfl s, cfgWord_toNat hromAw⟩

/-! ### Writes -/

/-- Settles O11: each write by its word number, the stored value the low bits of the data word. -/
theorem descriptorWriteStoresTheImplementedBits : Obligations.DescriptorWriteStoresTheImplementedBits := by
  rintro s d ⟨-, hromAw, -⟩
  have hbase := baseOfWord_toNat hromAw d
  simp only [← packOfBit_word, ← lowBits_eq_ofNat]
  exact ⟨⟨decodeHost_cases true 0x0C d, rfl⟩,
    ⟨decodeHost_cases true 0x10 d, baseOfWord s.cfg.romAw d, hbase, rfl⟩,
    ⟨decodeHost_cases true 0x14 d, rfl⟩,
    ⟨decodeHost_cases true 0x18 d, baseOfWord s.cfg.romAw d, hbase, rfl⟩,
    ⟨decodeHost_cases true 0x1C d, rfl⟩,
    ⟨decodeHost_cases true 0x20 d, rfl⟩⟩

/-- Settles O13: each write by its word number, its meaning the identity. -/
theorem readOnlyWriteChangesNothing : Obligations.ReadOnlyWriteChangesNothing := fun _ d =>
  ⟨⟨decodeHost_cases true 0x04 d, rfl⟩, ⟨decodeHost_cases true 0x08 d, rfl⟩, ⟨decodeHost_cases true 0x24 d, rfl⟩⟩

/-! ### Unmapped offsets -/

/-- The host accesses of the six words without a register (R38, R110). -/
theorem unmapped_access (s : State) (a : BitVec 6) (d : Word) (h : 10 ≤ a.toNat / 4) :
    exec (decodeHost (hostBits true a) d) s = .next s ∧
      exec (decodeHost (hostBits false a) d) s = .next { s with hrdata := 0 } := by
  have hlt : a.toNat / 4 < 16 := by omega
  simp only [decodeHost_cases]
  generalize a.toNat / 4 = word at h hlt
  interval_cases word <;> exact ⟨rfl, exec_read rfl s⟩

/-- Settles O14: the accesses by their word number; the instructions are the accesses of the six offsets. -/
theorem unmappedAccessReadsZeroAndWritesNothing : Obligations.UnmappedAccessReadsZeroAndWritesNothing :=
  ⟨unmapped_access, fun s _ =>
    ⟨rfl, exec_read rfl s, rfl, exec_read rfl s, rfl, exec_read rfl s,
      rfl, exec_read rfl s, rfl, exec_read rfl s, rfl, exec_read rfl s⟩⟩

/-! ### Commands -/

/-- STATUS reads 0 in IDLE with every flag clear (R116). -/
theorem statusWord_abortRun (s : State) : statusWord (abortRun s) = 0 := by
  apply BitVec.eq_of_toNat_eq
  simp [statusWord_toNat, busy, seqStateCode, errCodeCode]

/-- Settles O21: ABORT is `abortRun` in every state, which writes the run's status and nothing else. -/
theorem abortReturnsToIdle : Obligations.AbortReturnsToIdle := fun s =>
  ⟨abortRun s, rfl, rfl, rfl, rfl, rfl, rfl, rfl, statusWord_abortRun s, rfl, rfl, rfl, rfl, rfl, rfl,
    ⟨rfl, rfl, rfl⟩, ⟨rfl, rfl, rfl⟩, rfl, rfl, fun _ => rfl⟩

/-- START in CHECK or EMIT is rejected (R115). -/
theorem exec_start_of_busy {s : State} (h : busy s = true) : exec .start s = .next (commandError s) := by
  change execStart s = _
  rw [execStart, if_pos h]

/-- A word that holds a reserved opcode is that reserved command (R83, R117). -/
theorem decodeCmd_reserved {op : BitVec 8} (h : 3 ≤ op.toNat) : decodeCmd (op.setWidth 32) = .cmdReserved op := by
  have hop : (op.setWidth 32).toNat = op.toNat := BitVec.toNat_setWidth_of_le (by decide)
  rw [Commands.decodeCmd_by_opcode, hop, Nat.mod_eq_of_lt op.isLt, if_neg (by omega), if_neg (by omega),
    if_neg (by omega), BitVec.ofNat_toNat, BitVec.setWidth_eq]

/-- Settles O22: NOP is the identity; a rejected START and a reserved opcode are `commandError`. -/
theorem nopRejectedStartAndReservedTouchOnlyCmdErr : Obligations.NopRejectedStartAndReservedTouchOnlyCmdErr := by
  refine fun s => ⟨⟨rfl, fun w hw => ?_⟩, fun hs => exec_start_of_busy ((busy_iff s).mpr hs),
    fun op hop => ⟨rfl, decodeCmd_reserved hop⟩⟩
  rw [Commands.decodeCmd_by_opcode, if_pos hw]

end Sys2Proof.Proofs.HostInterface

/-! ## The unpacker: index bytes, entries and the check of a position -/

namespace Sys2Proof.Proofs.Unpacker

open Sys2Proof.Machine Sys2Proof.Proofs.RunInvariant

/-! ### The index of a position -/

theorem seqAddr_nibble {r : Record} (h : r.pack = .nibble) (i : Nat) : seqAddr r i = r.seqBase.toNat + i / 2 := by
  rw [seqAddr, h]

theorem seqAddr_byte {r : Record} (h : r.pack = .byte) (i : Nat) : seqAddr r i = r.seqBase.toNat + i := by
  rw [seqAddr, h]

theorem idx_nibble_even {r : Record} (rom : Memory) (h : r.pack = .nibble) {i : Nat} (hi : i % 2 = 0) :
    (idx rom r i).toNat = (rom.read (seqAddr r i)).toNat / 16 := by
  simp only [idx, indexOfByte, h, if_pos hi]
  rw [BitVec.toNat_setWidth_of_le (by decide), hiNibble_toNat]

theorem idx_nibble_odd {r : Record} (rom : Memory) (h : r.pack = .nibble) {i : Nat} (hi : i % 2 = 1) :
    (idx rom r i).toNat = (rom.read (seqAddr r i)).toNat % 16 := by
  simp only [idx, indexOfByte, h, if_neg (show ¬ i % 2 = 0 by omega)]
  rw [BitVec.toNat_setWidth_of_le (by decide), loNibble_toNat]

theorem idx_byte {r : Record} (rom : Memory) (h : r.pack = .byte) (i : Nat) :
    idx rom r i = rom.read (seqAddr r i) := by
  simp only [idx, indexOfByte, h]

/-- An index under nibble packing is one of 16 (R141). -/
theorem idx_nibble_lt {r : Record} (rom : Memory) (h : r.pack = .nibble) (i : Nat) : (idx rom r i).toNat < 16 := by
  have hb := (rom.read (seqAddr r i)).isLt
  rcases Nat.mod_two_eq_zero_or_one i with hi | hi
  · rw [idx_nibble_even rom h hi]; omega
  · rw [idx_nibble_odd rom h hi]; omega

/-- The index bytes lie among the `seqBytes(L)` bytes from the base (R140, R143). -/
theorem seqAddr_bounds (r : Record) {i L : Nat} (h : i < L) :
    r.seqBase.toNat ≤ seqAddr r i ∧ seqAddr r i < r.seqBase.toNat + seqBytes r.pack L := by
  cases hp : r.pack with
  | nibble => rw [seqAddr_nibble hp, seqBytes]; omega
  | byte => rw [seqAddr_byte hp, seqBytes]; omega

/-- Each of the `seqBytes(L)` bytes from the base is the index byte of a position (R140, R143). -/
theorem exists_seqAddr_eq (r : Record) {j L : Nat} (h : j < seqBytes r.pack L) :
    ∃ n < L, seqAddr r n = r.seqBase.toNat + j := by
  cases hp : r.pack with
  | nibble =>
    rw [hp, seqBytes] at h
    exact ⟨2 * j, by omega, by rw [seqAddr_nibble hp]; omega⟩
  | byte =>
    rw [hp, seqBytes] at h
    exact ⟨j, h, seqAddr_byte hp j⟩

/-- Settles O23: the two packings by the address and the index of a position, the index bytes of a record by their bounds and
a position for each. -/
theorem indexIsTheNibbleOrByteOfItsPosition : Obligations.IndexIsTheNibbleOrByteOfItsPosition := by
  refine fun rom r i j L => ⟨fun hp => ?_, fun hp => ?_, seqAddr_bounds r, exists_seqAddr_eq r⟩
  · have heven : seqAddr r (2 * j) = r.seqBase.toNat + j := by rw [seqAddr_nibble hp]; omega
    have hodd : seqAddr r (2 * j + 1) = r.seqBase.toNat + j := by rw [seqAddr_odd r _ hp (by omega), heven]
    exact ⟨heven, hodd, by rw [idx_nibble_even rom hp (by omega), heven],
      by rw [idx_nibble_odd rom hp (by omega), hodd], by rw [hp, seqBytes]⟩
  · exact ⟨seqAddr_byte hp i, by rw [idx_byte rom hp, seqAddr_byte hp], by rw [hp, seqBytes]⟩

/-! ### Entries -/

theorem entryAddr_tw8 {c : Config} (h : c.tw = .tw8) (r : Record) (k : BitVec 8) :
    entryAddr c r k = r.dictBase.toNat + 2 * k.toNat := by
  rw [entryAddr, esz, h, Nat.mul_comm]

theorem entryAddr_tw16 {c : Config} (h : c.tw = .tw16) (r : Record) (k : BitVec 8) :
    entryAddr c r k = r.dictBase.toNat + 4 * k.toNat := by
  rw [entryAddr, esz, h, Nat.mul_comm]

/-- Settles O24: zero extension keeps the number of a byte, and two bytes are a number little-endian (`le16_toNat`). -/
theorem entryFieldsAreUnsignedAndLittleEndian : Obligations.EntryFieldsAreUnsignedAndLittleEndian := by
  refine fun c rom r k => ⟨fun htw => ?_, fun htw => ?_⟩
  · simp only [entry, htw, entryAddr_tw8 htw]
    exact ⟨trivial, BitVec.toNat_setWidth_of_le (by decide), BitVec.toNat_setWidth_of_le (by decide)⟩
  · simp only [entry, htw, entryAddr_tw16 htw]
    exact ⟨trivial, le16_toNat _ _, le16_toNat _ _⟩

/-! ### The check of a position -/

/-- INDEX_RANGE is answered only for an index not below the dictionary size (R147). -/
theorem dictN_le_idx_of_indexRange {c : Config} {rom : Memory} {r : Record} {i : Nat} {k : BitVec 8}
    (h : checkPos c rom r i = .err .indexRange k) : r.dictN.toNat ≤ (idx rom r i).toNat := by
  by_contra hk
  unfold checkPos checkIndex at h
  rw [if_neg hk] at h
  split_ifs at h <;> cases h

/-- Settles O25: the three tests by the lemma of each; an index is below 16 or 256 by its packing, so a larger `W_DICT_N` rules
INDEX_RANGE out. -/
theorem positionCheckTestsInOrder : Obligations.PositionCheckTestsInOrder := by
  refine fun c rom r i => ⟨checkPos_of_outside rom, fun ha hk => ?_, fun ha hk => ⟨fun he => ?_, fun he => ?_⟩,
    fun hlarge k herr => ?_⟩
  · rw [checkPos_of_inside rom ha, checkIndex_indexRange hk]
  · rw [checkPos_of_inside rom ha, checkIndex_romRange hk he]
  · exact (checkPos_ok_iff c rom r i).mpr ⟨ha, hk, he⟩
  · have hrange := dictN_le_idx_of_indexRange herr
    rcases hlarge with ⟨hp, hn⟩ | ⟨-, hn⟩
    · have := idx_nibble_lt rom hp i
      omega
    · have := (idx rom r i).isLt
      omega

/-- The check of a position reads no ROM byte but its index (R147). -/
theorem checkPos_eq_of_idx_eq {rom rom' : Memory} {r : Record} {i : Nat} (c : Config)
    (h : idx rom' r i = idx rom r i) : checkPos c rom' r i = checkPos c rom r i := by
  rw [checkPos, checkPos, h]

theorem idx_eq_of_read_eq {rom rom' : Memory} {r : Record} {i : Nat}
    (h : rom'.read (seqAddr r i) = rom.read (seqAddr r i)) : idx rom' r i = idx rom r i := by
  rw [idx, idx, h]

/-- Where the length is odd the last index byte serves the last position alone (R150). -/
theorem eq_last_of_seqAddr_eq {r : Record} {i L : Nat} (hp : r.pack = .nibble) (hodd : L % 2 = 1) (hi : i < L)
    (ha : seqAddr r i = seqAddr r (L - 1)) : i = L - 1 := by
  rw [seqAddr_nibble hp, seqAddr_nibble hp] at ha
  omega

/-- Settles O26: only the last position has the byte that differs, and it is even, so its index is the hi nibble. -/
theorem unusedNibbleHasNoEffect : Obligations.UnusedNibbleHasNoEffect := by
  intro c rom rom' r hp hodd hsame hhi i hi
  have hidx : idx rom' r i = idx rom r i := by
    by_cases ha : seqAddr r i = seqAddr r (r.len.toNat - 1)
    · obtain rfl := eq_last_of_seqAddr_eq hp hodd hi ha
      have heven : (r.len.toNat - 1) % 2 = 0 := by omega
      apply BitVec.eq_of_toNat_eq
      rw [idx_nibble_even rom' hp heven, idx_nibble_even rom hp heven, hhi]
    · exact idx_eq_of_read_eq (hsame _ ha)
  exact ⟨hidx, checkPos_eq_of_idx_eq c hidx⟩

end Sys2Proof.Proofs.Unpacker

/-! ## The turns of the sequencer and of the consumer -/

namespace Sys2Proof.Proofs.Sequencer

open Sys2Proof.Machine Sys2Proof.Safety Sys2Proof.Proofs.RunInvariant

/-! ### The state each turn leaves -/

/-- A scheduled turn of the sequencer. -/
theorem step_seq {s : State} (h : Next s .seq) : step s = sequencerStep exec { s with script := s.script.tail } :=
  step_next h

/-- CHECK_END (R163). -/
theorem seq_checkEnd {s : State} (hs : s.seqState = .check) (hp : s.pos = s.work.len) :
    sequencerStep exec s = .next (endCheck s) := by
  simp only [sequencerStep, hs, if_pos hp]

/-- EMIT_END (R165). -/
theorem seq_emitEnd {s : State} (hs : s.seqState = .emit) (hv : s.outValid = false) (hp : s.pos = s.work.len) :
    sequencerStep exec s = .next (endEmit s) := by
  simp only [sequencerStep, hs, hv, Bool.false_eq_true, if_false, if_pos hp]

/-- The transfer (R167). -/
theorem consumerStep_presented {s : State} (hs : s.seqState = .emit) (hv : s.outValid = true) :
    consumerStep s = acceptPair s := by
  rw [consumerStep, if_pos ⟨hs, hv⟩]

/-- CHECK_NEXT (R161). -/
theorem seq_checkNext {s : State} (h : RunInv s) (hc : canCheck s = true)
    (hok : checkPos s.cfg s.rom s.work s.pos.toNat = .ok) :
    sequencerStep exec s = .next (advance (afterFetch s)) := by
  obtain ⟨ha, -, -⟩ := (checkPos_ok_iff _ _ _ _).mp hok
  rw [checkPos_of_inside s.rom ha] at hok
  rw [seq_check hc ha, indexOfByte_fetchedByte h (.inl hc)]
  simp [checkStep, hok]

/-- CHECK_FAIL (R162): the index byte has been fetched only where it is in the ROM. -/
theorem seq_checkFail {s : State} {code : ErrCode} {k : BitVec 8} (h : RunInv s) (hc : canCheck s = true)
    (herr : checkPos s.cfg s.rom s.work s.pos.toNat = .err code k) :
    sequencerStep exec s = .next (raiseDataIntegrity code k
      (if seqAddr s.work s.pos.toNat < s.cfg.romSize then afterFetch s else s)) := by
  split
  next ha =>
    rw [checkPos_of_inside s.rom ha] at herr
    rw [seq_check hc ha, indexOfByte_fetchedByte h (.inl hc)]
    simp [checkStep, herr]
  next ha =>
    have hout := Nat.le_of_not_lt ha
    rw [checkPos_of_outside s.rom hout] at herr
    cases herr
    exact seq_check_outside hc hout

/-- What EMIT_LOAD leaves (R164): the pair of `POS` presented, its entry bytes read after the fetch of its index byte. -/
def afterLoad (s : State) : State :=
  { emitPair (pair s.cfg s.rom s.work s.pos.toNat).1 (pair s.cfg s.rom s.work s.pos.toNat).2 (isLast s)
      (afterFetch s) with
    romEn := false
    romReads := (afterFetch s).romReads ++
      (List.range (esz s.cfg)).map (entryAddr s.cfg s.work (idx s.rom s.work s.pos.toNat) + ·) }

/-- EMIT_LOAD (R164): the CHECK pass has shown that the index byte and the entry are in the ROM. -/
theorem seq_emitLoad {s : State} (h : RunInv s) (hl : canLoad s = true) :
    sequencerStep exec s = .next (afterLoad s) := by
  obtain ⟨hs, -, hp⟩ := (canLoad_iff s).mp hl
  obtain ⟨ha, -, hentry⟩ := (checkPos_ok_iff _ _ _ _).mp (h.passed (.inl hs) _ hp)
  rw [seq_load hl (.inr ha), indexOfByte_fetchedByte h (.inr hl),
    loadEntry_inside (by simpa using hl) (by simpa using hentry)]
  simp [afterLoad, emitPair, pair, isLast]

/-! ### The obligations on single turns -/

/-- Settles O34: the turn is `endCheck` or `endEmit`. -/
theorem passEndsChangeOnlyStateAndPosition : Obligations.PassEndsChangeOnlyStateAndPosition :=
  fun _ hn hp => ⟨fun hs => (step_seq hn).trans (seq_checkEnd hs hp),
    fun hs hv => (step_seq hn).trans (seq_emitEnd hs hv hp)⟩

/-- Settles O35: the turn is `acceptPair`. -/
theorem transferDeliversThePresentedPair : Obligations.TransferDeliversThePresentedPair :=
  fun _ hn hs hv => (step_next hn).trans (congrArg Host.Outcome.next (consumerStep_presented hs hv))

/-- Settles O31: the turn advances `POS` after the fetch, which touches the ROM port and the latch only. -/
theorem checkNextValidatesOnePosition : Obligations.CheckNextValidatesOnePosition := by
  intro s h hn hs hp hok
  have hturn := seq_checkNext (RunInv_script h s.script.tail) ((canCheck_iff _).mpr ⟨hs, hp⟩) hok
  refine ⟨_, (step_seq hn).trans hturn, ?pos, ?work, ?desc, ?status, ?output, ?outside, ?rom, ?script, ?romEn, ?latch,
    ?reads⟩
  case pos => simpa using pos_succ hp (len_lt s.work)
  case romEn => exact fun hen => afterFetch_romEn (s := { s with script := s.script.tail }) hen
  case latch => exact fun hl => afterFetch_latch_off (s := { s with script := s.script.tail }) hl
  case reads => exact afterFetch_romReads { s with script := s.script.tail }
  all_goals simp [SameStatus, SameOutput, SameOutside, SameRom]

/-- Settles O33: the turn is `afterLoad`. -/
theorem emitLoadPresentsThePair : Obligations.EmitLoadPresentsThePair := by
  intro s h hn hs hv hp
  have hturn := seq_emitLoad (RunInv_script h s.script.tail) ((canLoad_iff _).mpr ⟨hs, hv, hp⟩)
  refine ⟨_, (step_seq hn).trans hturn, rfl, rfl, rfl, ?last, ?pos, ?work, ?desc, ?status, ?outside, ?rom, ?script, rfl,
    ?latch, ?reads⟩
  case last =>
    simp only [afterLoad, emitPair_outLast, isLast, decide_eq_true_eq]
    omega
  case latch => exact fun hl => afterFetch_latch_off (s := { s with script := s.script.tail }) hl
  case reads => simp only [afterLoad, afterFetch_romReads]
  all_goals simp [afterLoad, SameStatus, SameOutside, SameRom]

end Sys2Proof.Proofs.Sequencer

/-! ## How a finished run has ended -/

namespace Sys2Proof.Proofs.FinishedRuns

open Sys2Proof.Machine Sys2Proof.Safety
open Sys2Proof.Proofs.StatusInvariants Sys2Proof.Proofs.RunInvariant Sys2Proof.Proofs.Unpacker

/-! ### What has been delivered -/

/-- A run in DONE has delivered its whole record (R170). -/
theorem delivered_of_done {s : State} (h : RunInv s) (hs : s.seqState = .done) :
    s.delivered = expectedRun s.cfg s.rom s.work := by
  rw [h.sent (.inr hs), h.status.done hs, List.take_of_length_le (length_expectedRun _ _ _).le]

/-- The pair at position `i` of the expected run. -/
theorem expectedRun_getElem?_eq_some {c : Config} {rom : Memory} {r : Record} {i : Nat} {x : Transfer} :
    (expectedRun c rom r)[i]? = some x ↔ i < r.len.toNat ∧ expectedTransfer c rom r i = x := by
  simp [expectedRun, List.getElem?_eq_some_iff]

/-- Settles O53: what has been delivered is the expected run, whose pair at position `i` is that of R170. -/
theorem doneRunHasDeliveredEveryPair : Obligations.DoneRunHasDeliveredEveryPair := by
  intro s hreach hs
  rw [delivered_of_done (runInv_of_reachable hreach) hs]
  refine ⟨length_expectedRun _ _ _, fun i x hx => ?_⟩
  obtain ⟨hi, rfl⟩ := expectedRun_getElem?_eq_some.mp hx
  have hlen := len_lt s.work
  exact ⟨by rw [expectedTransfer, BitVec.toNat_ofNat, Nat.mod_eq_of_lt (by omega)], rfl, decide_eq_true_iff⟩

/-- Settles O54: the run invariant in ERROR. -/
theorem failedRunHasDeliveredNothing : Obligations.FailedRunHasDeliveredNothing := by
  intro s hreach hs
  have h := runInv_of_reachable hreach
  obtain ⟨-, hbelow, herr⟩ := h.failed hs
  exact ⟨h.quiet (.inr hs), by simp [herr], hbelow⟩

/-! ### What a run's result depends on -/

section

variable {c c' : Config} {rom rom' : Memory} {r : Record}

theorem esz_eq_of_tw_eq (htw : c.tw = c'.tw) : esz c = esz c' := by rw [esz, esz, htw]

theorem entryAddr_eq_of_tw_eq (htw : c.tw = c'.tw) (k : BitVec 8) : entryAddr c r k = entryAddr c' r k := by
  rw [entryAddr, entryAddr, esz_eq_of_tw_eq htw]

theorem entry_eq_of_read_eq (htw : c.tw = c'.tw) (hread : ∀ a, rom.read a = rom'.read a) (k : BitVec 8) :
    entry c rom r k = entry c' rom' r k := by
  simp only [entry, entryAddr_eq_of_tw_eq htw, htw, hread]

/-- The check of a position depends on `TW`, `ROM_SIZE` and the ROM contents only (R172). -/
theorem checkPos_eq_of_read_eq (htw : c.tw = c'.tw) (hsize : c.romSize = c'.romSize)
    (hread : ∀ a, rom.read a = rom'.read a) (i : Nat) : checkPos c rom r i = checkPos c' rom' r i := by
  rw [checkPos_eq_of_idx_eq c (idx_eq_of_read_eq (hread _).symm).symm]
  simp only [checkPos, checkIndex, entryAddr_eq_of_tw_eq htw, esz_eq_of_tw_eq htw, hsize]

/-- What the consumer is to receive depends on `TW` and the ROM contents only (R172). -/
theorem expectedRun_eq_of_read_eq (htw : c.tw = c'.tw) (hread : ∀ a, rom.read a = rom'.read a) :
    expectedRun c rom r = expectedRun c' rom' r := by
  have hpair : pair c rom r = pair c' rom' r := funext fun i => by
    rw [pair, pair, idx_eq_of_read_eq (hread _), entry_eq_of_read_eq htw hread]
  have htransfer : expectedTransfer c rom r = expectedTransfer c' rom' r := funext fun i => by
    rw [expectedTransfer, expectedTransfer, hpair]
  rw [expectedRun, expectedRun, htransfer]

end

/-! ### The result is a function of the record's checks -/

/-- A finished run is in DONE exactly if every position passes (R170, R171). -/
theorem done_iff_allPass {s : State} (h : RunInv s) (hf : Finished s) :
    s.seqState = .done ↔ AllPass s.cfg s.rom s.work := by
  refine ⟨fun hs => h.passed (.inr hs), fun hall => hf.resolve_right fun hs => ?_⟩
  obtain ⟨hp, -, herr⟩ := h.failed hs
  simp [hall _ hp] at herr

/-- The first position that fails is not above any other that fails. -/
theorem firstFailing_le {f : Nat → CheckResult} {p q : Nat} (hbelow : ∀ i < p, f i = .ok) (hq : f q ≠ .ok) : p ≤ q :=
  Nat.le_of_not_lt fun hlt => hq (hbelow q hlt)

/-- Settles O56: the checks and the expected run are the same for both, so both are in DONE with every pair delivered, or both
in ERROR at the first failing position with its error. -/
theorem finishedRunsOfOneRecordAgree : Obligations.FinishedRunsOfOneRecordAgree := by
  intro s t hreachS hreachT hfs hft htw hsize hread hwork
  have hs := runInv_of_reachable hreachS
  have ht := runInv_of_reachable hreachT
  have hcheck (i : Nat) : checkPos t.cfg t.rom t.work i = checkPos s.cfg s.rom s.work i := by
    rw [hwork, checkPos_eq_of_read_eq htw hsize hread]
  have hall : AllPass t.cfg t.rom t.work ↔ AllPass s.cfg s.rom s.work := by
    simp only [AllPass, hcheck, hwork]
  have hdone : s.seqState = .done ↔ t.seqState = .done := by
    rw [done_iff_allPass hs hfs, done_iff_allPass ht hft, hall]
  by_cases hd : s.seqState = .done
  · have hd' := hdone.mp hd
    obtain ⟨hcodeS, hidxS⟩ := error_clear_of_not_error hs.status (by simp [hd])
    obtain ⟨hcodeT, hidxT⟩ := error_clear_of_not_error ht.status (by simp [hd'])
    refine ⟨hd.trans hd'.symm, ?_, hcodeS.trans hcodeT.symm, hidxS.trans hidxT.symm, ?_⟩
    · rw [hs.status.done hd, ht.status.done hd', hwork]
    · rw [delivered_of_done hs hd, delivered_of_done ht hd', hwork, expectedRun_eq_of_read_eq htw hread]
  · have he := hfs.resolve_left hd
    have he' := hft.resolve_left (mt hdone.mpr hd)
    obtain ⟨-, hbelowS, herrS⟩ := hs.failed he
    obtain ⟨-, hbelowT, herrT⟩ := ht.failed he'
    simp only [hcheck] at hbelowT herrT
    have hpos : s.pos = t.pos := BitVec.eq_of_toNat_eq <|
      (firstFailing_le hbelowS (by simp [herrT])).antisymm (firstFailing_le hbelowT (by simp [herrS]))
    obtain ⟨hcode, hidx⟩ := CheckResult.err.inj (herrS.symm.trans (hpos ▸ herrT))
    exact ⟨he.trans he'.symm, hpos, hcode, hidx, by rw [hs.quiet (.inr he), ht.quiet (.inr he')]⟩

end Sys2Proof.Proofs.FinishedRuns

/-! ## The number of steps of a run -/

namespace Sys2Proof.Proofs.StepCount

open Sys2Proof.Machine Sys2Proof.Safety
open Sys2Proof.Proofs.StatusInvariants Sys2Proof.Proofs.RunInvariant Sys2Proof.Proofs.Sequencer

/-! ### Where a run stands after a number of steps -/

/-- `u` is a state of the run of `s`'s descriptor: in `phase` at position `n`, with a pair presented or not, and `todo` the
schedule to come. -/
structure RunAt (s : State) (phase : SeqState) (shown : Bool) (n : Nat) (todo : List Line) (u : State) : Prop where
  inv : RunInv u
  cfg : u.cfg = s.cfg
  rom : u.rom = s.rom
  work : u.work = s.desc
  phase : u.seqState = phase
  shown : u.outValid = shown
  pos : u.pos.toNat = n
  todo : u.script = todo

/-- `k` steps from `s` lead to such a state. -/
def RunsTo (s : State) (k : Nat) (phase : SeqState) (shown : Bool) (n : Nat) (todo : List Line) : Prop :=
  ∃ u, core.run k s = .next u ∧ RunAt s phase shown n todo u

section

variable {s u : State} {k n : Nat} {phase phase' : SeqState} {shown shown' : Bool} {todo : List Line}

/-- The run's place does not depend on the schedule to come. -/
theorem RunAt.withScript (h : RunAt s phase shown n todo u) (x : List Line) :
    RunAt s phase shown n x { u with script := x } :=
  ⟨RunInv_script h.inv x, h.cfg, h.rom, h.work, h.phase, h.shown, h.pos, rfl⟩

theorem RunAt.canCheck (h : RunAt s .check shown n todo u) (hn : n < s.desc.len.toNat) : canCheck u = true :=
  (canCheck_iff u).mpr ⟨h.phase, by rwa [h.pos, h.work]⟩

theorem RunAt.canLoad (h : RunAt s .emit false n todo u) (hn : n < s.desc.len.toNat) : canLoad u = true :=
  (canLoad_iff u).mpr ⟨h.phase, h.shown, by rwa [h.pos, h.work]⟩

theorem RunAt.pos_eq_len (h : RunAt s phase shown s.desc.len.toNat todo u) : u.pos = u.work.len :=
  BitVec.eq_of_toNat_eq (by rw [h.pos, h.work])

theorem RunAt.pos_succ (h : RunAt s phase shown n todo u) (hn : n < s.desc.len.toNat) : (u.pos + 1).toNat = n + 1 := by
  rw [Machine.pos_succ (n := s.desc.len.toNat) (by rwa [h.pos]) (len_lt s.desc), h.pos]

theorem RunAt.checkPos_eq (h : RunAt s phase shown n todo u) :
    checkPos u.cfg u.rom u.work u.pos.toNat = checkPos s.cfg s.rom s.desc n := by
  rw [h.cfg, h.rom, h.work, h.pos]

/-- In EMIT the pairs of the positions below `POS` have been delivered (R30). -/
theorem RunAt.length_delivered (h : RunAt s .emit shown n todo u) (hn : n ≤ s.desc.len.toNat) :
    u.delivered.length = n := by
  rw [h.inv.sent (.inl h.phase), List.length_take, length_expectedRun, h.pos, h.work, min_eq_left hn]

/-- In CHECK and EMIT the run is busy (R25). -/
theorem RunsTo.busy (h : RunsTo s k phase shown n todo) (hp : phase = .check ∨ phase = .emit) :
    ∃ u, core.run k s = .next u ∧ busy u = true := by
  obtain ⟨u, hrun, hu⟩ := h
  exact ⟨u, hrun, (busy_iff u).mpr (hu.phase ▸ hp)⟩

/-! ### One more step -/

/-- A step after `k` others. -/
theorem run_succ {t : State} (hrun : core.run k s = .next u) (hstep : step u = .next t) :
    core.run (k + 1) s = .next t := by
  rw [run_add hrun, run_step hstep, run_zero]

/-- An accepted START (R114). -/
theorem runsTo_start (hb : busy s = false) (hs : s.script = lineStart :: todo) : RunsTo s 1 .check false 0 todo :=
  ⟨_, run_succ (run_zero s) (step_start hb hs), RunInv_startRun _, rfl, rfl, rfl, rfl, rfl, rfl, rfl⟩

/-- A turn of the sequencer at the head of the schedule, by what it does wherever the run stands so. -/
theorem RunsTo.seq {n' : Nat} (h : RunsTo s k phase shown n (.act .seq :: todo))
    (hturn : ∀ u, RunAt s phase shown n todo u → ∃ t, sequencerStep exec u = .next t ∧
      t.seqState = phase' ∧ t.outValid = shown' ∧ t.pos.toNat = n') :
    RunsTo s (k + 1) phase' shown' n' todo := by
  obtain ⟨u, hrun, hu⟩ := h
  have hu' := hu.withScript todo
  obtain ⟨t, ht, hphase, hshown, hpos⟩ := hturn _ hu'
  obtain ⟨hcfg, hrom, hwork, -, -, -, -, -, hscript⟩ := sequencerStep_frame ht
  exact ⟨t, run_succ hrun ((step_act hu.todo).trans ht), runInv_sequencerStep hu'.inv ht, hcfg.trans hu'.cfg,
    hrom.trans hu'.rom, hwork.trans hu'.work, hphase, hshown, hpos, hscript⟩

/-- CHECK_NEXT (R161). -/
theorem RunsTo.checkNext (h : RunsTo s k .check false n (.act .seq :: todo)) (hn : n < s.desc.len.toNat)
    (hok : checkPos s.cfg s.rom s.desc n = .ok) : RunsTo s (k + 1) .check false (n + 1) todo :=
  h.seq fun _ hu => ⟨_, seq_checkNext hu.inv (hu.canCheck hn) (hu.checkPos_eq.trans hok), by simp [hu.phase],
    by simp [hu.shown], by simpa using hu.pos_succ hn⟩

/-- CHECK_FAIL (R162). -/
theorem RunsTo.checkFail {code : ErrCode} {i : BitVec 8} (h : RunsTo s k .check false n (.act .seq :: todo))
    (hn : n < s.desc.len.toNat) (herr : checkPos s.cfg s.rom s.desc n = .err code i) :
    RunsTo s (k + 1) .error false n todo :=
  h.seq fun _ hu => ⟨_, seq_checkFail hu.inv (hu.canCheck hn) (hu.checkPos_eq.trans herr), rfl,
    by simp [apply_ite State.outValid, hu.shown], by simp [apply_ite State.pos, hu.pos]⟩

/-- CHECK_END (R163). -/
theorem RunsTo.checkEnd (h : RunsTo s k .check false s.desc.len.toNat (.act .seq :: todo)) :
    RunsTo s (k + 1) .emit false 0 todo :=
  h.seq fun _ hu => ⟨_, seq_checkEnd hu.phase hu.pos_eq_len, rfl, hu.shown, rfl⟩

/-- EMIT_LOAD (R164). -/
theorem RunsTo.emitLoad (h : RunsTo s k .emit false n (.act .seq :: todo)) (hn : n < s.desc.len.toNat) :
    RunsTo s (k + 1) .emit true n todo :=
  h.seq fun _ hu => ⟨_, seq_emitLoad hu.inv (hu.canLoad hn), by simp [afterLoad, hu.phase], rfl,
    by simp [afterLoad, hu.pos]⟩

/-- EMIT_END (R165). -/
theorem RunsTo.emitEnd (h : RunsTo s k .emit false s.desc.len.toNat (.act .seq :: todo)) :
    RunsTo s (k + 1) .done false s.desc.len.toNat todo :=
  h.seq fun _ hu => ⟨_, seq_emitEnd hu.phase hu.shown hu.pos_eq_len, rfl, hu.shown, hu.pos⟩

/-- The transfer (R167). -/
theorem RunsTo.transfer (h : RunsTo s k .emit true n (.act .xfer :: todo)) (hn : n < s.desc.len.toNat) :
    RunsTo s (k + 1) .emit false (n + 1) todo := by
  obtain ⟨u, hrun, hu⟩ := h
  have hu' := hu.withScript todo
  have hstep : step u = .next (acceptPair { u with script := todo }) :=
    (step_act hu.todo).trans (congrArg Host.Outcome.next (consumerStep_presented hu'.phase hu'.shown))
  exact ⟨_, run_succ hrun hstep, runInv_acceptPair hu'.inv hu'.shown, hu.cfg, hu.rom, hu.work, hu.phase, rfl,
    hu'.pos_succ hn, rfl⟩

end

/-! ### The passes -/

/-- `m` loads, each with its transfer at once (R173). -/
def emitTurns (m : Nat) : List Line := (List.replicate m [Line.act .seq, Line.act .xfer]).flatten

theorem emitTurns_succ (m : Nat) : emitTurns (m + 1) = .act .seq :: .act .xfer :: emitTurns m := rfl

section

variable {s : State} {k n m : Nat} {todo : List Line}

/-- `n` positions that pass take `n` steps of the CHECK pass (R161). -/
theorem RunsTo.checkPass (h : RunsTo s k .check false 0 (List.replicate (n + m) (.act .seq) ++ todo))
    (hn : n ≤ s.desc.len.toNat) (hok : ∀ i < n, checkPos s.cfg s.rom s.desc i = .ok) :
    RunsTo s (k + n) .check false n (List.replicate m (.act .seq) ++ todo) := by
  induction n generalizing m with
  | zero => simpa using h
  | succ n ih =>
    rw [Nat.add_right_comm n 1 m] at h
    have hpass := ih (m := m + 1) h (by omega) fun i hi => hok i (by omega)
    rw [List.replicate_succ, List.cons_append] at hpass
    exact hpass.checkNext (by omega) (hok n (by omega))

/-- `n` pairs take `n` loads and transfers (R164, R167). -/
theorem RunsTo.emitPass (h : RunsTo s k .emit false 0 (emitTurns (n + m) ++ todo)) (hn : n ≤ s.desc.len.toNat) :
    RunsTo s (k + 2 * n) .emit false n (emitTurns m ++ todo) := by
  induction n generalizing m with
  | zero => simpa using h
  | succ n ih =>
    rw [Nat.add_right_comm n 1 m] at h
    have hpass := ih (m := m + 1) h (by omega)
    rw [emitTurns_succ, List.cons_append, List.cons_append] at hpass
    exact (hpass.emitLoad (by omega)).transfer (by omega)

end

/-! ### A successful run -/

section

variable {s : State} {rest : List Line} (hb : busy s = false) (hall : AllPass s.cfg s.rom s.desc)
  (hs : s.script = lineStart :: successSchedule s.desc.len.toNat ++ rest)

include hb hs

/-- After START the whole schedule of the run is to come. -/
theorem runsTo_check_zero :
    RunsTo s 1 .check false 0
      (List.replicate (s.desc.len.toNat + 1) (.act .seq) ++ (emitTurns s.desc.len.toNat ++ .act .seq :: rest)) :=
  runsTo_start hb (by simpa [successSchedule, emitTurns] using hs)

include hall

/-- After START and `n` CHECK steps the run is in CHECK at position `n`. -/
theorem exists_runsTo_check {n : Nat} (hn : n ≤ s.desc.len.toNat) :
    ∃ todo, RunsTo s (n + 1) .check false n todo := by
  obtain ⟨m, hm⟩ := Nat.exists_eq_add_of_le hn
  have h := runsTo_check_zero hb hs
  rw [show s.desc.len.toNat + 1 = n + (m + 1) by omega] at h
  exact ⟨_, Nat.add_comm 1 n ▸ h.checkPass hn fun i hi => hall i (by omega)⟩

/-- `L + 1` CHECK steps after START the EMIT pass begins. -/
theorem runsTo_emit_zero :
    RunsTo s (s.desc.len.toNat + 2) .emit false 0 (emitTurns s.desc.len.toNat ++ .act .seq :: rest) := by
  have h := ((runsTo_check_zero hb hs).checkPass le_rfl hall).checkEnd
  rwa [show 1 + s.desc.len.toNat + 1 = s.desc.len.toNat + 2 by omega] at h

/-- After `j` loads and transfers the run is in EMIT at position `j`, the other `m` to come. -/
theorem runsTo_emit {j m : Nat} (hj : s.desc.len.toNat = j + m) :
    RunsTo s (s.desc.len.toNat + 2 + 2 * j) .emit false j (emitTurns m ++ .act .seq :: rest) := by
  have h := runsTo_emit_zero hb hall hs
  rw [congrArg emitTurns hj] at h
  exact h.emitPass (by omega)

/-- One load later the pair of position `j` is presented. -/
theorem exists_runsTo_presented {j : Nat} (hj : j < s.desc.len.toNat) :
    ∃ todo, RunsTo s (s.desc.len.toNat + 2 + 2 * j + 1) .emit true j todo := by
  obtain ⟨m, hm⟩ := Nat.exists_eq_add_of_lt hj
  have h := runsTo_emit hb hall hs (j := j) (m := m + 1) hm
  rw [emitTurns_succ, List.cons_append] at h
  exact ⟨_, h.emitLoad hj⟩

/-- After the whole schedule the run is in DONE at position `L`. -/
theorem runsTo_done : RunsTo s (3 * s.desc.len.toNat + 3) .done false s.desc.len.toNat rest := by
  have h := (runsTo_emit hb hall hs (j := s.desc.len.toNat) (m := 0) rfl).emitEnd
  rwa [show s.desc.len.toNat + 2 + 2 * s.desc.len.toNat + 1 = 3 * s.desc.len.toNat + 3 by omega] at h

/-- Until then the run is busy: in the CHECK pass, before a load or EMIT_END, or with a pair presented. -/
theorem busy_before_done {n : Nat} (h1 : 1 ≤ n) (hn : n < 3 * s.desc.len.toNat + 3) :
    ∃ u, core.run n s = .next u ∧ busy u = true := by
  rcases Nat.lt_or_ge n (s.desc.len.toNat + 2) with hcheck | hemit
  · obtain ⟨i, rfl⟩ := Nat.exists_eq_add_of_le' h1
    obtain ⟨todo, h⟩ := exists_runsTo_check hb hall hs (n := i) (by omega)
    exact h.busy (.inl rfl)
  · obtain ⟨d, rfl⟩ := Nat.exists_eq_add_of_le hemit
    obtain ⟨j, rfl | rfl⟩ := Nat.even_or_odd' d
    · obtain ⟨m, hm⟩ := Nat.exists_eq_add_of_le (show j ≤ s.desc.len.toNat by omega)
      exact (runsTo_emit hb hall hs hm).busy (.inr rfl)
    · obtain ⟨todo, h⟩ := exists_runsTo_presented hb hall hs (j := j) (by omega)
      exact h.busy (.inr rfl)

end

/-! ### A run that fails -/

section

variable {s : State} {rest : List Line} {p : Nat} (hb : busy s = false) (hp : p < s.desc.len.toNat)
  (hbelow : ∀ i < p, checkPos s.cfg s.rom s.desc i = .ok)
  (hs : s.script = lineStart :: List.replicate (p + 1) (.act .seq) ++ rest)

include hb hp hbelow hs

/-- After START and `n` CHECK steps the run is in CHECK at position `n`, up to the position that fails. -/
theorem runsTo_check_of_fail {n m : Nat} (hn : p = n + m) :
    RunsTo s (n + 1) .check false n (List.replicate (m + 1) (.act .seq) ++ rest) := by
  have h := runsTo_start hb hs
  rw [show p + 1 = n + (m + 1) by omega] at h
  exact Nat.add_comm 1 n ▸ h.checkPass (by omega) fun i hi => hbelow i (by omega)

/-- One CHECK step at the failing position ends the run in ERROR. -/
theorem runsTo_error {code : ErrCode} {k : BitVec 8} (herr : checkPos s.cfg s.rom s.desc p = .err code k) :
    RunsTo s (p + 2) .error false p rest :=
  (runsTo_check_of_fail hb hp hbelow hs (m := 0) rfl).checkFail hp herr

end

/-! ### The obligation -/

/-- In ERROR the error of the position is recorded and nothing has been delivered (R171, R203). -/
theorem RunAt.error_result {s u : State} {shown : Bool} {n : Nat} {todo : List Line} {code : ErrCode} {k : BitVec 8}
    (h : RunAt s .error shown n todo u) (herr : checkPos s.cfg s.rom s.desc n = .err code k) :
    u.errCode = code ∧ u.errIdx = k ∧ u.delivered = [] := by
  obtain ⟨-, -, hfailed⟩ := h.inv.failed h.phase
  obtain ⟨hcode, hidx⟩ := CheckResult.err.inj (hfailed.symm.trans (h.checkPos_eq.trans herr))
  exact ⟨hcode, hidx, h.inv.quiet (.inr h.phase)⟩

/-- Settles O58: the place of the run after each number of steps, from the passes of its schedule. -/
theorem runEndsInItsStepCount : Obligations.RunEndsInItsStepCount := by
  refine ⟨fun s rest hb hall hs => ⟨fun n hn => ?check, fun j hj => ?emit, fun j hj => ?presented,
    fun n => busy_before_done hb hall hs, ?done⟩,
    fun s rest p code k hb hp hbelow herr hs => ⟨fun n hn => ?checkBelow, ?error⟩⟩
  case check =>
    obtain ⟨todo, u, hrun, hu⟩ := exists_runsTo_check hb hall hs hn
    exact ⟨u, hrun, hu.phase, hu.pos⟩
  case emit =>
    obtain ⟨m, hm⟩ := Nat.exists_eq_add_of_le hj
    obtain ⟨u, hrun, hu⟩ := runsTo_emit hb hall hs hm
    rw [Nat.add_right_comm] at hrun
    exact ⟨u, hrun, hu.phase, hu.shown, hu.pos, hu.length_delivered hj⟩
  case presented =>
    obtain ⟨todo, u, hrun, hu⟩ := exists_runsTo_presented hb hall hs hj
    rw [Nat.add_right_comm _ 2] at hrun
    exact ⟨u, hrun, hu.phase, hu.shown, hu.pos, hu.length_delivered hj.le⟩
  case done =>
    obtain ⟨u, hrun, hu⟩ := runsTo_done hb hall hs
    have hsent := FinishedRuns.delivered_of_done hu.inv hu.phase
    rw [hu.cfg, hu.rom, hu.work] at hsent
    exact ⟨u, hrun, hu.phase, by rw [hu.pos_eq_len, hu.work], hu.shown, hsent, hu.todo⟩
  case checkBelow =>
    obtain ⟨m, hm⟩ := Nat.exists_eq_add_of_le hn
    obtain ⟨u, hrun, hu⟩ := runsTo_check_of_fail hb hp hbelow hs hm
    exact ⟨u, hrun, hu.phase, hu.pos, (busy_iff u).mpr (.inl hu.phase)⟩
  case error =>
    obtain ⟨u, hrun, hu⟩ := runsTo_error hb hp hbelow hs herr
    obtain ⟨hcode, hidx, hsent⟩ := hu.error_result herr
    exact ⟨u, hrun, hu.phase, hcode, hidx, hu.pos, hsent, hu.shown, hu.todo⟩

end Sys2Proof.Proofs.StepCount

/-! ## The error state -/

namespace Sys2Proof.Proofs.ErrorState

open Sys2Proof.Machine Sys2Proof.Safety

/-- `t` stands in ERROR with the result that `s` has (R237). -/
def KeepsError (s t : State) : Prop :=
  t.seqState = .error ∧ t.errCode = s.errCode ∧ t.errIdx = s.errIdx ∧ t.pos = s.pos

/-- In ERROR the sequencer has no step (R168). -/
theorem sequencerStep_of_error {s : State} (hs : s.seqState = .error) : sequencerStep exec s = .next s := by
  rw [sequencerStep, hs]

/-- In ERROR there is no transfer, whatever `OUT_VALID` holds (R167). -/
theorem consumerStep_of_error {s : State} (hs : s.seqState = .error) : consumerStep s = s := by
  rw [consumerStep, if_neg (by simp [hs])]

/-- A host access in ERROR keeps the result unless it is a START, which is accepted there, or an ABORT (R114, R116). -/
theorem host_keepsError_or_leaves {s u t : State} {we : Bool} {a : BitVec 6} {d : Word} (hu : KeepsError s u)
    (ht : act (.host we a d) u = .next t) :
    KeepsError s t ∨
      we = true ∧ a.toNat / 4 = 0 ∧
        (d.toNat % 256 = 1 ∧ t = startRun u ∨ d.toNat % 256 = 2 ∧ t = abortRun u) := by
  obtain ⟨t', ht', hcases⟩ := host_cases we a d u
  obtain rfl : t' = t := by simpa [ht'] using ht
  rcases hcases with rfl | ⟨v, rfl⟩ | ⟨r, rfl, -, -⟩ | ⟨hwe, ha, hcmd⟩
  · exact .inl hu
  · exact .inl hu
  · exact .inl hu
  · rcases hcmd with ⟨-, -, rfl⟩ | ⟨hop, -, rfl⟩ | ⟨hop, rfl⟩ | ⟨-, rfl⟩
    · exact .inl hu
    · exact .inr ⟨hwe, ha, .inl ⟨hop, rfl⟩⟩
    · exact .inr ⟨hwe, ha, .inr ⟨hop, rfl⟩⟩
    · exact .inl hu

/-- Settles O42: by the agent of the step; the sequencer and the consumer have no step in ERROR. -/
theorem errorIsLeftOnlyByStartAbortOrReset : Obligations.ErrorIsLeftOnlyByStartAbortOrReset := by
  intro s t hs hstep
  have hscript (x : List Line) : KeepsError s { s with script := x } := ⟨hs, rfl, rfl, rfl⟩
  rcases step_effect hstep with ⟨u, hsame, hagent⟩ | ⟨x, rfl⟩
  · have hu : KeepsError s u := by
      rcases hsame with rfl | ⟨x, rfl⟩
      · exact hscript u.script
      · exact hscript x
    rcases hagent with ⟨we, a, d, hnext, ht⟩ | ⟨-, ht⟩ | ⟨-, rfl⟩ | ⟨hnext, rfl⟩
    · rcases host_keepsError_or_leaves hu ht with hkeeps | ⟨rfl, ha, ⟨hop, rfl⟩ | ⟨hop, rfl⟩⟩
      · exact .inl hkeeps
      · exact .inr (.inl ⟨⟨a, d, hnext, ha, hop⟩, rfl, rfl, rfl⟩)
      · exact .inr (.inr ⟨.inl ⟨a, d, hnext, ha, hop⟩, rfl, rfl, rfl⟩)
    · obtain rfl : u = t := by simpa [sequencerStep_of_error hu.1] using ht
      exact .inl hu
    · rw [consumerStep_of_error hu.1]
      exact .inl hu
    · exact .inr (.inr ⟨.inr hnext, rfl, rfl, rfl⟩)
  · exact .inl (hscript x)

end Sys2Proof.Proofs.ErrorState

/-! ## A descriptor write during a run -/

namespace Sys2Proof.Proofs.DescriptorWrites

open Sys2Proof.Machine Sys2Proof.Safety

/-- The descriptor registers after a descriptor write (R103 to R108). -/
def writtenDesc (c : Config) (d : Record) : Instr → Record
  | .wrMode w => { d with pack := packOfBit (w.getLsbD 0) }
  | .wrDictBase w => { d with dictBase := baseOfWord c.romAw w }
  | .wrDictN w => { d with dictN := w.extractLsb' 0 9 }
  | .wrSeqBase w => { d with seqBase := baseOfWord c.romAw w }
  | .wrLen w => { d with len := w.extractLsb' 0 16 }
  | .wrCarrier w => { d with carrier := w.extractLsb' 0 16 }
  | _ => d

/-- A descriptor write is one `writeDesc`, whose record depends on the parameters and the descriptor only (R102). -/
theorem exec_descriptorWrite {i : Instr} (h : isDescriptorWrite i = true) (s : State) :
    exec i s = .next (writeDesc (writtenDesc s.cfg s.desc i) s) := by
  cases i with
  | wrMode | wrDictBase | wrDictN | wrSeqBase | wrLen | wrCarrier => rfl
  | _ => exact absurd h Bool.false_ne_true

/-! ### The run does not look at the descriptor

Each operation of the sequencer and of the consumer commutes with a descriptor write: what it does to the state with
another descriptor is what it does to the state, with that descriptor put in afterwards. -/

/-- The outcome with the descriptor `r` in its next state; a stop stays what it is. -/
def withDesc (r : Record) : Host.Outcome State Fault Refusal → Host.Outcome State Fault Refusal
  | .next s => .next (writeDesc r s)
  | .fault x => .fault x
  | .refused x => .refused x

/-- The next states of an outcome with the descriptor put in. -/
theorem withDesc_eq_next {r : Record} {o : Host.Outcome State Fault Refusal} {t : State} (h : withDesc r o = .next t) :
    ∃ s, o = .next s ∧ writeDesc r s = t := by
  cases o with
  | next s => exact ⟨s, rfl, Host.Outcome.next.inj h⟩
  | fault | refused => cases h

/-- At or above `ROM_SIZE` the read is not defined (R11). -/
theorem withRomByte_outside {a : Nat} {s : State} (h : ¬ a < s.cfg.romSize)
    (k : Byte → State → Host.Outcome State Fault Refusal) : withRomByte a s k = .fault (.romAddress a) :=
  if_neg h

section
variable (r : Record) (s : State)

/-- The ROM read, if what is done with the byte commutes. -/
theorem withRomByte_writeDesc {k : Byte → State → Host.Outcome State Fault Refusal} (a : Nat)
    (hk : ∀ b t, k b (writeDesc r t) = withDesc r (k b t)) :
    withRomByte a (writeDesc r s) k = withDesc r (withRomByte a s k) := by
  by_cases ha : a < s.cfg.romSize
  · rw [withRomByte_inside ha, withRomByte_inside (s := writeDesc r s) ha]
    exact hk _ (romRelease (romDrive a s))
  · rw [withRomByte_outside ha, withRomByte_outside (s := writeDesc r s) ha]
    rfl

theorem execEntryTw8_writeDesc (on off : BitVec 8) :
    execEntryTw8 on off (writeDesc r s) = withDesc r (execEntryTw8 on off s) := by
  rw [execEntryTw8, execEntryTw8, apply_ite (withDesc r)]
  rfl

theorem execEntryTw16_writeDesc (on off : BitVec 16) :
    execEntryTw16 on off (writeDesc r s) = withDesc r (execEntryTw16 on off s) := by
  rw [execEntryTw16, execEntryTw16, apply_ite (withDesc r)]
  rfl

/-- The reading and presenting of an entry (R164). -/
theorem loadEntry_writeDesc (k : BitVec 8) : loadEntry k (writeDesc r s) = withDesc r (loadEntry k s) := by
  simp only [loadEntry, writeDesc_cfg, writeDesc_work]
  cases s.cfg.tw with
  | tw8 =>
    exact withRomByte_writeDesc r s _ fun _ s0 => withRomByte_writeDesc r s0 _ fun _ s1 =>
      execEntryTw8_writeDesc r s1 _ _
  | tw16 =>
    exact withRomByte_writeDesc r s _ fun _ s0 => withRomByte_writeDesc r s0 _ fun _ s1 =>
      withRomByte_writeDesc r s1 _ fun _ s2 => withRomByte_writeDesc r s2 _ fun _ s3 =>
      execEntryTw16_writeDesc r s3 _ _

/-- The validation of an index (R161, R162). -/
theorem checkStep_writeDesc (k : BitVec 8) : checkStep k (writeDesc r s) = writeDesc r (checkStep k s) := by
  simp only [checkStep, writeDesc_cfg, writeDesc_work]
  cases checkIndex s.cfg s.work k <;> rfl

theorem canCheck_writeDesc : canCheck (writeDesc r s) = canCheck s := rfl

theorem canLoad_writeDesc : canLoad (writeDesc r s) = canLoad s := rfl

theorem latchIndex_writeDesc (b : Byte) : latchIndex b (writeDesc r s) = writeDesc r (latchIndex b s) := rfl

theorem applyIndex_writeDesc (k : BitVec 8) : applyIndex k (writeDesc r s) = withDesc r (applyIndex k s) := by
  simp only [applyIndex, canCheck_writeDesc, canLoad_writeDesc, checkStep_writeDesc, loadEntry_writeDesc]
  split_ifs <;> rfl

/-- An index byte, in the format of its position (R141, R142). -/
theorem exec_decodeIndex_writeDesc (p : Packing) (n : Nat) (b : Byte) :
    exec (decodeIndex p n b) (writeDesc r s) = withDesc r (exec (decodeIndex p n b) s) := by
  cases p with
  | byte => exact applyIndex_writeDesc r s b
  | nibble =>
    simp only [decodeIndex, decodeNibbleByte]
    split
    · exact applyIndex_writeDesc r s _
    · simp only [exec, execIdxNibbleHi, canCheck_writeDesc, canLoad_writeDesc, latchIndex_writeDesc,
        applyIndex_writeDesc]
      split <;> rfl

theorem fetchIndex_writeDesc : fetchIndex exec (writeDesc r s) = withDesc r (fetchIndex exec s) := by
  have hlatch : latchHolds (writeDesc r s) = latchHolds s := rfl
  simp only [fetchIndex, hlatch]
  split
  · exact exec_decodeIndex_writeDesc r s _ _ _
  · exact withRomByte_writeDesc r s _ fun b t => exec_decodeIndex_writeDesc r t _ _ b

/-- The sequencer's turn (R160 to R168). -/
theorem sequencerStep_writeDesc : sequencerStep exec (writeDesc r s) = withDesc r (sequencerStep exec s) := by
  simp only [sequencerStep, fetchIndex_writeDesc, canCheck_writeDesc, canLoad_writeDesc, writeDesc_seqState,
    writeDesc_pos, writeDesc_work, writeDesc_outValid, writeDesc_cfg]
  cases s.seqState with
  | check | emit => dsimp only; split_ifs <;> rfl
  | idle | done | error => rfl

/-- The consumer's turn (R167). -/
theorem consumerStep_writeDesc : consumerStep (writeDesc r s) = writeDesc r (consumerStep s) := by
  rw [consumerStep, consumerStep, apply_ite (writeDesc r)]
  rfl

/-- A sequencer step or a transfer does the same under every descriptor, and keeps the one there is (R234). -/
theorem act_writeDesc {e : Event} (he : e = .seq ∨ e = .xfer) : act e (writeDesc r s) = withDesc r (act e s) := by
  obtain rfl | rfl := he
  · exact sequencerStep_writeDesc r s
  · exact congrArg Host.Outcome.next (consumerStep_writeDesc r s)

end

/-- A sequencer step or a transfer changes neither the parameters nor the descriptor (R39). -/
theorem act_cfg_desc {e : Event} {s t : State} (he : e = .seq ∨ e = .xfer) (h : act e s = .next t) :
    t.cfg = s.cfg ∧ t.desc = s.desc := by
  obtain rfl | rfl := he
  · obtain ⟨hcfg, -, -, hdesc, -⟩ := sequencerStep_frame h
    exact ⟨hcfg, hdesc⟩
  · cases h
    obtain ⟨hcfg, -, -, hdesc, -⟩ := consumerStep_frame s
    exact ⟨hcfg, hdesc⟩

/-- Settles O44: the step does the same under the written descriptor, and leaves the write what it depends on. -/
theorem descriptorWriteDoesNotDisturbTheRun : Obligations.DescriptorWriteDoesNotDisturbTheRun := by
  intro i e s u v hi he hu hv
  rw [exec_descriptorWrite hi s] at hu
  cases hu
  rw [act_writeDesc _ s he] at hv
  obtain ⟨w, hw, rfl⟩ := withDesc_eq_next hv
  obtain ⟨hcfg, hdesc⟩ := act_cfg_desc he hw
  exact ⟨w, hw, by rw [exec_descriptorWrite hi w, hcfg, hdesc]⟩

end Sys2Proof.Proofs.DescriptorWrites

/-! ## Encodings -/

namespace Sys2Proof.Proofs.Encoding

open Sys2Proof.Machine Sys2Proof.Safety

/-! ### Decoding an encoding -/

/-- A host write: the access byte, then the four bytes of `hwdata` (R81). -/
theorem decode_hostWrite {b : Byte} (h7 : b[7] = false) (hwe : b[6] = true) (d : Word)
    (rest : List Byte) :
    decode .hostacc7 (b :: bytes32 d ++ rest) = .ok (decodeHost (b.extractLsb' 0 7) d, rest) := by
  simp [decode, bytes32, h7, hwe]

/-- A host read: the access byte alone (R81). -/
theorem decode_hostRead {b : Byte} (h7 : b[7] = false) (hwe : b[6] = false) (rest : List Byte) :
    decode .hostacc7 (b :: rest) = .ok (decodeHost (b.extractLsb' 0 7) 0, rest) := by
  simp [decode, h7, hwe]

/-- A command: the four bytes of its word (R82). -/
theorem decode_cmd (w : Word) (rest : List Byte) :
    decode .cmd32 (bytes32 w ++ rest) = .ok (decodeCmd w, rest) := by
  simp [decode, bytes32]

/-- A nibble-packed index byte, put together from its nibbles (R84). -/
theorem decodeNibbleByte_append (odd : Bool) (hi lo : BitVec 4) :
    decodeNibbleByte odd (hi ++ lo) = if odd then .idxNibbleLo hi lo else .idxNibbleHi hi lo := by
  simp [decodeNibbleByte]

/-- Settles O1: by the instruction, through the decoding of its format; the bytes of a word give the word back. -/
theorem encodedInstructionDecodesBack : Obligations.EncodedInstructionDecodesBack := by
  intro i rest hwf
  cases i with
  | nop | start | abort => exact decode_cmd _ rest
  | cmdReserved op =>
    have hop : 3 ≤ op.toNat := by simpa [wellFormed] using hwf
    exact (decode_cmd _ rest).trans (by rw [HostInterface.decodeCmd_reserved hop])
  | wrCmd d | wrStatus d | wrPos d | wrMode d | wrDictBase d | wrDictN d | wrSeqBase d | wrLen d | wrCarrier d
  | wrCfg d | wrUnmapped28 d | wrUnmapped2C d | wrUnmapped30 d | wrUnmapped34 d | wrUnmapped38 d
  | wrUnmapped3C d => exact decode_hostWrite rfl rfl d rest
  | rdCmd | rdStatus | rdPos | rdMode | rdDictBase | rdDictN | rdSeqBase | rdLen | rdCarrier
  | rdCfg | rdUnmapped28 | rdUnmapped2C | rdUnmapped30 | rdUnmapped34 | rdUnmapped38
  | rdUnmapped3C => exact decode_hostRead rfl rfl rest
  | idxNibbleHi hi lo | idxNibbleLo hi lo =>
    exact congrArg (fun i => Except.ok (i, rest)) (decodeNibbleByte_append _ hi lo)
  | idxByte | entryTw8 => rfl
  | entryTw16 on off => simp [formatOf, encode, decode, bytes16]

/-! ### What the decoder answers -/

theorem decodeHost_wf (acc : BitVec 7) (d : Word) :
    wellFormed (decodeHost acc d) = true ∧ formatOf (decodeHost acc d) = .hostacc7 := by
  unfold decodeHost
  split <;> exact ⟨rfl, rfl⟩

/-- The opcodes 0x00 to 0x02 are commands of their own, so a reserved one is at least 3 (R83). -/
theorem decodeCmd_wf (w : Word) : wellFormed (decodeCmd w) = true ∧ formatOf (decodeCmd w) = .cmd32 := by
  rw [Commands.decodeCmd_by_opcode]
  split_ifs
  case neg => exact ⟨by simp [wellFormed]; omega, rfl⟩
  all_goals exact ⟨rfl, rfl⟩

theorem decodeNibbleByte_wf (odd : Bool) (b : Byte) :
    wellFormed (decodeNibbleByte odd b) = true ∧ formatOf (decodeNibbleByte odd b) = .idxn8 odd := by
  cases odd <;> exact ⟨rfl, rfl⟩

/-- Whatever bytes a format's decoder takes, its answer is well-formed and of that format. -/
theorem decode_wf {f : Format} {bytes rest : List Byte} {i : Instr} (h : decode f bytes = .ok (i, rest)) :
    wellFormed i = true ∧ formatOf i = f := by
  unfold decode at h
  split at h
  case h_1 =>
    split_ifs at h
    · split at h
      · cases h; exact decodeHost_wf _ _
      · cases h
    · cases h; exact decodeHost_wf _ _
  case h_2 => cases h; exact decodeCmd_wf _
  case h_3 => cases h; exact decodeNibbleByte_wf _ _
  case h_4 | h_5 | h_6 => cases h; exact ⟨rfl, rfl⟩
  case h_7 => cases h

/-- Settles O2: the re-encoding decodes back because the answer is well-formed (O1). -/
theorem decodedInstructionIsWellFormed : Obligations.DecodedInstructionIsWellFormed := by
  intro f bytes rest i h
  obtain ⟨hwf, rfl⟩ := decode_wf h
  exact ⟨hwf, rfl, encodedInstructionDecodesBack i rest hwf⟩

/-- Settles O3: the decoder run on six words of the spec. -/
theorem specWordsDecodeToTheirInstructions : Obligations.SpecWordsDecodeToTheirInstructions :=
  ⟨rfl, rfl, rfl, rfl, rfl, rfl⟩

/-- A read does not look at `hwdata` (R81). -/
theorem decodeHost_read (a : BitVec 6) (d d' : Word) :
    decodeHost (hostBits false a) d = decodeHost (hostBits false a) d' := by
  have hlt : a.toNat / 4 < 16 := by omega
  rw [decodeHost_cases, decodeHost_cases]
  generalize a.toNat / 4 = word at hlt
  interval_cases word <;> rfl

/-- Settles O4: the access by its word number; only a write looks at `hwdata`. -/
theorem hostAccessIsSelectedByItsWord : Obligations.HostAccessIsSelectedByItsWord := by
  intro we a a' d d' ha hd
  have hword : decodeHost (hostBits we a) d = decodeHost (hostBits we a') d := by
    rw [decodeHost_cases, decodeHost_cases, ha]
  cases we with
  | true => rw [hword, hd rfl]
  | false => rw [hword, decodeHost_read]

end Sys2Proof.Proofs.Encoding

/-! ## The sequencer's turn where it has no position to process -/

namespace Sys2Proof.Proofs.Resting

open Sys2Proof.Machine Sys2Proof.Safety

/-- What a turn without a position leaves: a pass whose positions are all done ends (R163, R165), otherwise nothing happens
(R168). -/
def afterRest (s : State) : State :=
  if s.seqState = .check ∧ s.pos = s.work.len then endCheck s
  else if s.seqState = .emit ∧ s.outValid = false ∧ s.pos = s.work.len then endEmit s
  else s

theorem seq_rest {s : State} (hc : canCheck s = false) (hl : canLoad s = false) :
    sequencerStep exec s = .next (afterRest s) := by
  cases hs : s.seqState with
  | idle | done | error => simp [sequencerStep, afterRest, hs]
  | check => by_cases hp : s.pos = s.work.len <;> simp [sequencerStep, afterRest, hs, hc, hp]
  | emit =>
    cases hv : s.outValid with
    | true => simp [sequencerStep, afterRest, hs, hv]
    | false => by_cases hp : s.pos = s.work.len <;> simp [sequencerStep, afterRest, hs, hv, hl, hp]

/-- Outside CHECK and EMIT there is no step (R168). -/
theorem seq_of_not_busy {s : State} (hb : busy s = false) : sequencerStep exec s = .next s := by
  obtain hs | hs | hs := (busy_false_iff s).mp hb <;> rw [sequencerStep, hs]

/-- While a pair is presented there is no step (R166, R168). -/
theorem seq_of_presented {s : State} (hs : s.seqState = .emit) (hv : s.outValid = true) :
    sequencerStep exec s = .next s := by
  simp only [sequencerStep, hs, if_pos hv]

/-- Where nothing is presented in EMIT there is no transfer (R167). -/
theorem consumerStep_of_not_presented {s : State} (h : s.seqState ≠ .emit ∨ s.outValid = false) :
    consumerStep s = s := by
  rw [consumerStep, if_neg]
  rintro ⟨hs, hv⟩
  rcases h with h | h
  · exact h hs
  · simp [hv] at h

/-- Settles O36: the turns that are not enabled are the identity on the state without their entry. -/
theorem noStepIsInventedWhereNoneIsEnabled : Obligations.NoStepIsInventedWhereNoneIsEnabled := by
  refine ⟨fun s hn hs => (step_next hn).trans ?_, fun s hn h => (step_next hn).trans ?_⟩
  · have hcases : busy s = false ∨ s.seqState = .emit ∧ s.outValid = true := by
      simpa only [busy_false_iff, or_assoc] using hs
    rcases hcases with hb | ⟨hs, hv⟩
    · exact seq_of_not_busy hb
    · exact seq_of_presented hs hv
  · exact congrArg Host.Outcome.next (consumerStep_of_not_presented h)

end Sys2Proof.Proofs.Resting

/-! ## In a run every step completes and keeps the invariants -/

namespace Sys2Proof.Proofs.Progress

open Sys2Proof.Machine Sys2Proof.Safety
open Sys2Proof.Proofs.StatusInvariants Sys2Proof.Proofs.RunInvariant Sys2Proof.Proofs.Sequencer
open Sys2Proof.Proofs.Resting

/-- Settles O48: `statusInv_step`, by the agents of a step. -/
theorem stepKeepsTheStatusInvariants : Obligations.StepKeepsTheStatusInvariants := fun _ _ => statusInv_step

/-- Settles O50: `runInv_step`, by the agents of a step. -/
theorem stepKeepsTheRunInvariant : Obligations.StepKeepsTheRunInvariant := fun _ _ => runInv_step

/-- In a state of a run the sequencer's turn completes: a position of the EMIT pass has passed its check, so its index byte and
its entry are in the ROM (R164). -/
theorem seq_completes {s : State} (h : RunInv s) : ∃ t, sequencerStep exec s = .next t := by
  by_cases hc : canCheck s = true
  · cases hpos : checkPos s.cfg s.rom s.work s.pos.toNat with
    | ok => exact ⟨_, seq_checkNext h hc hpos⟩
    | err code k => exact ⟨_, seq_checkFail h hc hpos⟩
  by_cases hl : canLoad s = true
  · exact ⟨_, seq_emitLoad h hl⟩
  · exact ⟨_, seq_rest (by simpa using hc) (by simpa using hl)⟩

/-- In a state of a run every event completes. -/
theorem act_completes {s : State} (h : RunInv s) (e : Event) : ∃ t, act e s = .next t := by
  cases e with
  | host we a d =>
    obtain ⟨t, ht, -⟩ := host_cases we a d s
    exact ⟨t, ht⟩
  | seq => exact seq_completes h
  | xfer => exact ⟨_, rfl⟩
  | rst => exact ⟨_, rfl⟩

/-- Settles O52: by the head of the schedule; the events complete, and replacing a macro always does. -/
theorem runNeverStops : Obligations.RunNeverStops := by
  intro s h
  cases hs : s.script with
  | nil => exact step_nil hs ▸ act_completes h .seq
  | cons l rest =>
    cases l with
    | act e => exact step_act hs ▸ act_completes (RunInv_script h rest) e
    | expand m => exact ⟨_, step_expand hs⟩

end Sys2Proof.Proofs.Progress

/-! ## Builds that step alike -/

namespace Sys2Proof.Proofs.Builds

open Sys2Proof.Machine Sys2Proof.Safety
open Sys2Proof.Proofs.RunInvariant Sys2Proof.Proofs.Sequencer Sys2Proof.Proofs.Resting

/-! ### Host accesses and macros do not look at what two builds differ in -/

/-- The outcome with the next state seen through `f`; a stop stays what it is. -/
def mapNext (f : State → State) : Host.Outcome State Fault Refusal → Host.Outcome State Fault Refusal
  | .next s => .next (f s)
  | .fault x => .fault x
  | .refused x => .refused x

/-- A view of the state as another build would show it, with other parameters, latch and record of reads: `withoutLatch` and
`withTiming` are such views. -/
def view (c : Config → Config) (l : Byte → Byte) (reads : List Nat → List Nat) (s : State) : State :=
  { s with cfg := c s.cfg, latch := l s.latch, romReads := reads s.romReads }

/-- A view that the host cannot tell: the parameters it reads are the same, and what a reset or a START clears stays clear. -/
structure HostBlind (c : Config → Config) (l : Byte → Byte) (reads : List Nat → List Nat) : Prop where
  tw (x : Config) : (c x).tw = x.tw
  romAw (x : Config) : (c x).romAw = x.romAw
  latch : l 0#8 = 0#8
  reads : reads [] = []

theorem hostBlind_withoutLatch : HostBlind (fun c => { c with latch := false }) (fun _ => 0) (fun _ => []) :=
  ⟨fun _ => rfl, fun _ => rfl, rfl, rfl⟩

theorem hostBlind_withTiming (romLat irdxBase : Nat) :
    HostBlind (fun c => { c with romLat := romLat, irdxBase := irdxBase }) id id :=
  ⟨fun _ => rfl, fun _ => rfl, rfl, rfl⟩

section

variable {c : Config → Config} {l : Byte → Byte} {reads : List Nat → List Nat} (hb : HostBlind c l reads)

include hb

theorem exec_command_view {i : Instr} (h : formatOf i = .cmd32) (s : State) :
    exec i (view c l reads s) = mapNext (view c l reads) (exec i s) := by
  cases i with
  | nop | abort | cmdReserved => rfl
  | start =>
    have hbusy : busy (view c l reads s) = busy s := rfl
    simp only [exec, execStart, hbusy]
    split
    · rfl
    · simp [mapNext, view, startRun, clearError, hb.reads]
  | _ => cases h

theorem exec_access_view {i : Instr} (h : formatOf i = .hostacc7) (s : State) :
    exec i (view c l reads s) = mapNext (view c l reads) (exec i s) := by
  cases i with
  | wrCmd d =>
    rw [Commands.exec_wrCmd, Commands.exec_wrCmd]
    exact exec_command_view hb (Encoding.decodeCmd_wf d).2 s
  | wrDictBase | wrSeqBase => simp [exec, execWrDictBase, execWrSeqBase, writeDesc, mapNext, view, hb.romAw]
  | rdCfg => simp [exec, execRdCfg, hostRead, cfgWord, mapNext, view, hb.romAw, hb.tw]
  | wrStatus | wrPos | wrMode | wrDictN | wrLen | wrCarrier | wrCfg => rfl
  | rdCmd | rdStatus | rdPos | rdMode | rdDictBase | rdDictN | rdSeqBase | rdLen | rdCarrier => rfl
  | wrUnmapped28 | wrUnmapped2C | wrUnmapped30 | wrUnmapped34 | wrUnmapped38 | wrUnmapped3C => rfl
  | rdUnmapped28 | rdUnmapped2C | rdUnmapped30 | rdUnmapped34 | rdUnmapped38 | rdUnmapped3C => rfl
  | _ => cases h

theorem applyReset_view (s : State) : applyReset (view c l reads s) = view c l reads (applyReset s) := by
  simp [applyReset, State.resetOf, view, hb.latch, hb.reads]

/-- The events other than the sequencer's turn. -/
theorem act_view {e : Event} (he : e ≠ .seq) (s : State) :
    act e (view c l reads s) = mapNext (view c l reads) (act e s) := by
  cases e with
  | host we a d => exact exec_access_view hb (Encoding.decodeHost_wf _ d).2 s
  | seq => exact absurd rfl he
  | xfer =>
    simp only [act, mapNext, consumerStep, apply_ite (view c l reads)]
    rfl
  | rst => exact congrArg Host.Outcome.next (applyReset_view hb s)

omit hb in
theorem expandMacro_view (m : Macro) (s : State) : expandMacro m (view c l reads s) = expandMacro m s := by
  cases m <;> rfl

/-- A step through a view, given the sequencer's turn through it: `R v t` says how the view's step `v` and the step `t` are to
agree. -/
theorem step_view {R : State → State → Prop} {s t : State} (hR : ∀ t, R (view c l reads t) t)
    (hseq : ∀ x t, sequencerStep exec { s with script := x } = .next t →
      ∃ v, sequencerStep exec (view c l reads { s with script := x }) = .next v ∧ R v t)
    (h : step s = .next t) : ∃ v, step (view c l reads s) = .next v ∧ R v t := by
  rcases step_cases h with ⟨e, hn, ht⟩ | ⟨hs, ht⟩ | ⟨m, rest, hs, rfl⟩
  · rw [step_next (s := view c l reads s) hn]
    by_cases he : e = .seq
    · subst he
      exact hseq _ t ht
    · exact ⟨_, (act_view hb he { s with script := s.script.tail }).trans (congrArg (mapNext _) ht), hR t⟩
  · rw [step_nil (s := view c l reads s) hs]
    exact hseq s.script t ht
  · rw [step_expand (s := view c l reads s) hs, expandMacro_view]
    exact ⟨_, rfl, hR { s with script := expandMacro m s ++ rest }⟩

end

/-! ### The ROM latency and the base address -/

section

variable (romLat irdxBase : Nat) (s : State)

theorem afterRest_withTiming :
    afterRest (withTiming romLat irdxBase s) = withTiming romLat irdxBase (afterRest s) := by
  simp only [afterRest, apply_ite (withTiming romLat irdxBase)]
  rfl

theorem afterFetch_withTiming :
    afterFetch (withTiming romLat irdxBase s) = withTiming romLat irdxBase (afterFetch s) := by
  simp only [afterFetch, apply_ite (withTiming romLat irdxBase)]
  rfl

theorem checkStep_withTiming (k : BitVec 8) :
    checkStep k (withTiming romLat irdxBase s) = withTiming romLat irdxBase (checkStep k s) := by
  have hcheck : checkIndex (withTiming romLat irdxBase s).cfg (withTiming romLat irdxBase s).work k =
    checkIndex s.cfg s.work k := rfl
  simp only [checkStep, hcheck]
  cases checkIndex s.cfg s.work k <;> rfl

variable {s} in
theorem loadEntry_withTiming {k : BitVec 8} {t : State} (hl : canLoad s = true) (h : loadEntry k s = .next t) :
    loadEntry k (withTiming romLat irdxBase s) = .next (withTiming romLat irdxBase t) := by
  have hin := loadEntry_next h
  rw [loadEntry_inside hl hin] at h
  cases h
  exact loadEntry_inside (s := withTiming romLat irdxBase s) hl hin

variable {s} in
/-- The sequencer's turn does not look at the latency and the base address (R9, R214). -/
theorem sequencerStep_withTiming {t : State} (h : sequencerStep exec s = .next t) :
    sequencerStep exec (withTiming romLat irdxBase s) = .next (withTiming romLat irdxBase t) := by
  rcases seq_cases h with
    ⟨rfl, hc, hl⟩ | ⟨hs, hp, rfl⟩ | ⟨hs, hv, hp, rfl⟩ | ⟨hc, ha, rfl⟩ | ⟨hc, ha, rfl⟩ | ⟨hl, hload, ha⟩
  · have hrest : afterRest t = t := by simpa [seq_rest hc hl] using h
    rw [seq_rest (s := withTiming romLat irdxBase t) hc hl, afterRest_withTiming, hrest]
  · exact seq_checkEnd (s := withTiming romLat irdxBase s) hs hp
  · exact seq_emitEnd (s := withTiming romLat irdxBase s) hs hv hp
  · exact seq_check_outside (s := withTiming romLat irdxBase s) hc ha
  · rw [seq_check (s := withTiming romLat irdxBase s) hc ha, afterFetch_withTiming, checkStep_withTiming]
    rfl
  · rw [seq_load (s := withTiming romLat irdxBase s) hl ha, afterFetch_withTiming]
    exact loadEntry_withTiming romLat irdxBase (by simpa using hl) hload

end

/-- Settles O45: the host's instructions do not look at the two parameters, and neither does the sequencer's turn. -/
theorem latencyAndBaseAddressHaveNoEffect : Obligations.LatencyAndBaseAddressHaveNoEffect := by
  intro s t romLat irdxBase h
  obtain ⟨v, hv, rfl⟩ := step_view (hostBlind_withTiming romLat irdxBase)
    (R := fun v t => v = withTiming romLat irdxBase t) (fun _ => rfl)
    (fun _ _ ht => ⟨_, sequencerStep_withTiming romLat irdxBase ht, rfl⟩) h
  exact hv

/-! ### The index latch -/

/-- In a build without the latch the run invariant asks nothing of it (R42). -/
theorem runInv_withoutLatch {s : State} (h : RunInv s) : RunInv (withoutLatch s) :=
  ⟨⟨h.status.posLe, h.status.valid, h.status.errCode, h.status.errIdx, h.status.done, h.status.idle⟩, h.checked,
    h.passed, h.failed, h.quiet, h.sent, h.shown, h.aborted, fun hl => absurd hl Bool.false_ne_true⟩

/-- The fetch of an index byte touches the ROM port and the latch only, and leaves `rom_en = 0` (R61). -/
theorem withoutLatch_afterFetch {s : State} (hen : s.romEn = false) : withoutLatch (afterFetch s) = withoutLatch s := by
  unfold afterFetch
  split
  · rfl
  · simp [withoutLatch, hen]

theorem afterRest_withoutLatch (s : State) : afterRest (withoutLatch s) = withoutLatch (afterRest s) := by
  simp only [afterRest, apply_ite withoutLatch]
  rfl

/-! What a turn does after the fetch does not look at the latch and the record of reads. -/
theorem withoutLatch_advance (s : State) : withoutLatch (advance s) = advance (withoutLatch s) := rfl

theorem withoutLatch_raiseDataIntegrity (code : ErrCode) (k : BitVec 8) (s : State) :
    withoutLatch (raiseDataIntegrity code k s) = raiseDataIntegrity code k (withoutLatch s) := rfl

theorem withoutLatch_afterLoad (s : State) :
    withoutLatch (afterLoad s) =
      { emitPair (pair s.cfg s.rom s.work s.pos.toNat).1 (pair s.cfg s.rom s.work s.pos.toNat).2 (isLast s)
        (withoutLatch (afterFetch s)) with romEn := false } := rfl

/-- A turn of the sequencer in the build without the latch ends as one in the build with it: the run invariant says that the
byte the latch holds is the byte the other build reads (R42). -/
theorem sequencerStep_withoutLatch {s t : State} (h : RunInv s) (hen : s.romEn = false)
    (ht : sequencerStep exec s = .next t) :
    ∃ v, sequencerStep exec (withoutLatch s) = .next v ∧ withoutLatch v = withoutLatch t := by
  have h' := runInv_withoutLatch h
  have hfetch : withoutLatch (afterFetch (withoutLatch s)) = withoutLatch (afterFetch s) := by
    rw [withoutLatch_afterFetch hen, withoutLatch_afterFetch (s := withoutLatch s) hen]
    rfl
  by_cases hc : canCheck s = true
  · cases hpos : checkPos s.cfg s.rom s.work s.pos.toNat with
    | ok =>
      obtain rfl := Host.Outcome.next.inj ((seq_checkNext h hc hpos).symm.trans ht)
      refine ⟨_, seq_checkNext h' hc hpos, ?_⟩
      rw [withoutLatch_advance, withoutLatch_advance, hfetch]
    | err code k =>
      obtain rfl := Host.Outcome.next.inj ((seq_checkFail h hc hpos).symm.trans ht)
      refine ⟨_, seq_checkFail h' hc hpos, ?_⟩
      rw [withoutLatch_raiseDataIntegrity, withoutLatch_raiseDataIntegrity, apply_ite withoutLatch,
        apply_ite withoutLatch, hfetch]
      rfl
  by_cases hl : canLoad s = true
  · obtain rfl := Host.Outcome.next.inj ((seq_emitLoad h hl).symm.trans ht)
    refine ⟨_, seq_emitLoad h' hl, ?_⟩
    rw [withoutLatch_afterLoad, withoutLatch_afterLoad, hfetch]
    rfl
  · have hc' : canCheck s = false := by simpa using hc
    have hl' : canLoad s = false := by simpa using hl
    obtain rfl := Host.Outcome.next.inj ((seq_rest hc' hl').symm.trans ht)
    exact ⟨_, seq_rest (s := withoutLatch s) hc' hl', by rw [afterRest_withoutLatch]; rfl⟩

/-- Settles O57: the host's instructions do not look at the latch; the sequencer's turn is `sequencerStep_withoutLatch`. -/
theorem indexLatchIsUnobservable : Obligations.IndexLatchIsUnobservable := fun _ _ h hport ht =>
  step_view hostBlind_withoutLatch (R := fun v t => withoutLatch v = withoutLatch t) (fun _ => rfl)
    (fun x _ => sequencerStep_withoutLatch (RunInv_script h x) hport.idle) ht

end Sys2Proof.Proofs.Builds

/-! ## Single steps: the instruction each one runs -/

namespace Sys2Proof.Proofs.SingleSteps

open Sys2Proof.Machine Sys2Proof.Safety

/-- Settles O5: the head of the schedule is taken. -/
theorem stepRunsTheDecodedHostAccess : Obligations.StepRunsTheDecodedHostAccess := fun _ _ _ _ _ hs => step_act hs

/-- The sequencer's turn, scheduled or on an empty schedule (R174). -/
theorem step_seqTurn {s : State} (h : s.script = [] ∨ Next s .seq) :
    step s = sequencerStep exec { s with script := s.script.tail } := by
  rcases h with h | h
  · have hsame : { s with script := s.script.tail } = s := by rw [h, List.tail_nil, ← h]
    rw [hsame]
    exact step_nil h
  · exact step_next h

/-- At a position whose index byte is in the ROM the turn is the fetch of that byte, in either pass. -/
theorem seq_fetch {s : State} (hs : canCheck s = true ∨ canLoad s = true)
    (ha : seqAddr s.work s.pos.toNat < s.cfg.romSize) : sequencerStep exec s = fetchIndex exec s :=
  hs.elim (fun hc => seq_fetch_check hc ha) seq_fetch_load

/-- The fetch by whether the latch stands for the ROM read (R42). -/
theorem fetchIndex_inside {s : State} (run : Instr → State → Host.Outcome State Fault Refusal)
    (ha : seqAddr s.work s.pos.toNat < s.cfg.romSize) :
    fetchIndex run s =
      if s.cfg.latch = true ∧ s.work.pack = .nibble ∧ s.pos.toNat % 2 = 1 then
        run (decodeIndex s.work.pack s.pos.toNat s.latch) s
      else
        run (decodeIndex s.work.pack s.pos.toNat (s.rom.read (seqAddr s.work s.pos.toNat)))
          { s with romEn := false, romReads := s.romReads ++ [seqAddr s.work s.pos.toNat] } := by
  simp only [fetchIndex, latchHolds_iff, withRomByte_inside ha, romReads_record]

/-- Settles O6: the turn is the fetch, and the fetch runs the byte decoded. -/
theorem stepRunsTheDecodedIndexByte : Obligations.StepRunsTheDecodedIndexByte := by
  intro s hs hp ha hturn
  have hready : canCheck { s with script := s.script.tail } = true ∨ canLoad { s with script := s.script.tail } = true :=
    hs.imp (fun hcheck => (canCheck_iff _).mpr ⟨hcheck, hp⟩) fun hload => (canLoad_iff _).mpr ⟨hload.1, hload.2, hp⟩
  rw [step_seqTurn hturn, seq_fetch hready ha]
  exact fetchIndex_inside (s := { s with script := s.script.tail }) exec ha

/-! ### Index bytes and entries -/

/-- An index byte in CHECK (R161, R162). -/
theorem exec_index_check {i : Instr} {k : BitVec 8} {s : State} (hi : indexOperand i = some k) (hc : canCheck s = true) :
    exec i s = .next (checkStep k { s with latch := latchAfter i s }) := by
  have hc' : canCheck { s with latch := latchAfter i s } = true := hc
  rw [exec_index hi (.inl hc), applyIndex, if_pos hc']

/-- An index byte in EMIT with nothing presented (R164). -/
theorem exec_index_load {i : Instr} {k : BitVec 8} {s : State} (hi : indexOperand i = some k) (hl : canLoad s = true) :
    exec i s = loadEntry k { s with latch := latchAfter i s } := by
  have hc' : canCheck { s with latch := latchAfter i s } = false := canLoad_not_canCheck hl
  have hl' : canLoad { s with latch := latchAfter i s } = true := hl
  rw [exec_index hi (.inr hl), applyIndex, hc', if_neg Bool.false_ne_true, if_pos hl']

/-- An index that passes in CHECK (R161). -/
theorem exec_index_passes {i : Instr} {k : BitVec 8} {s : State} (hi : indexOperand i = some k) (hc : canCheck s = true)
    (h : checkIndex s.cfg s.work k = .ok) : exec i s = .next (advance { s with latch := latchAfter i s }) := by
  rw [exec_index_check hi hc]
  simp only [checkStep, h]

/-- An index that fails in CHECK (R162). -/
theorem exec_index_fails {i : Instr} {k k' : BitVec 8} {code : ErrCode} {s : State} (hi : indexOperand i = some k)
    (hc : canCheck s = true) (h : checkIndex s.cfg s.work k = .err code k') :
    exec i s = .next (raiseDataIntegrity code k' { s with latch := latchAfter i s }) := by
  rw [exec_index_check hi hc]
  simp only [checkStep, h]

/-- Settles O27: an index that passes advances `POS`. -/
theorem checkedIndexAdvancesThePosition : Obligations.CheckedIndexAdvancesThePosition := fun _ _ _ hi hs hp hk hentry =>
  exec_index_passes hi ((canCheck_iff _).mpr ⟨hs, hp⟩) ((checkIndex_ok_iff _ _ _).mpr ⟨hk, hentry⟩)

/-- Settles O28: an index that fails raises the error of the first test it fails. -/
theorem failedIndexEntersTheErrorState : Obligations.FailedIndexEntersTheErrorState := fun _ _ _ hi hs hp =>
  have hc := (canCheck_iff _).mpr ⟨hs, hp⟩
  ⟨fun hk => exec_index_fails hi hc (checkIndex_indexRange hk),
    fun hk hentry => exec_index_fails hi hc (checkIndex_romRange hk hentry)⟩

/-- Settles O29: an index in EMIT loads its entry. -/
theorem emittedIndexPresentsItsEntry : Obligations.EmittedIndexPresentsItsEntry := by
  intro i k s hi hs hv hp hentry
  have hl := (canLoad_iff s).mpr ⟨hs, hv, hp⟩
  rw [exec_index_load hi hl]
  exact loadEntry_inside (s := { s with latch := latchAfter i s }) hl hentry

/-- Settles O30: an entry in EMIT is `emitPair` of its fields, zero-extended where they have 8 bits. -/
theorem entryIsPresentedUnchanged : Obligations.EntryIsPresentedUnchanged := by
  intro s hs hv hp
  have hl := (canLoad_iff s).mpr ⟨hs, hv, hp⟩
  simp only [BitVec.ofNat_toNat]
  exact ⟨fun _ _ => if_pos hl, fun _ _ => if_pos hl⟩

/-- Settles O32: the turn is `seq_checkFail`; the positions below have passed by the run invariant. -/
theorem checkFailRecordsTheError : Obligations.CheckFailRecordsTheError := by
  intro s code k h hn hs hp herr
  have hturn := Sequencer.seq_checkFail (RunInv_script h s.script.tail) ((canCheck_iff _).mpr ⟨hs, hp⟩) herr
  have hv := StatusInvariants.outValid_false_of_not_emit h.status (by simp [hs])
  have hbelow := h.checked hs
  have hreads := afterFetch_romReads { s with script := s.script.tail }
  have hen := afterFetch_romEn (s := { s with script := s.script.tail })
  have hlatch := afterFetch_latch_off (s := { s with script := s.script.tail })
  refine ⟨_, (Sequencer.step_seq hn).trans hturn, ?_⟩
  by_cases ha : seqAddr s.work s.pos.toNat < s.cfg.romSize
  · simp only [if_pos ha]
    simpa [SameOutput, SameOutside, SameRom, Nat.not_le.mpr ha] using ⟨hbelow, hv, hen, hlatch, hreads⟩
  · simp only [if_neg ha]
    simpa [SameOutput, SameOutside, SameRom, Nat.not_lt.mp ha] using ⟨hbelow, hv⟩

end Sys2Proof.Proofs.SingleSteps

/-! ## What a step of each agent writes -/

namespace Sys2Proof.Proofs.Effects

open Sys2Proof.Machine Sys2Proof.Safety

/-! ### The effects of a step -/

/-- What a step from `s` does to the same state with its new schedule, by the entry that was at the head. -/
inductive Effect (s : State) : State → State → Prop where
  /-- Nothing: a macro replaced, NOP, a write to a read-only register or to none. -/
  | nothing {u : State} : Effect s u u
  | read {u : State} (v : Word) : NextHost s → Effect s u (hostRead v u)
  | descriptorWrite {u : State} (r : Record) : NextHost s → Effect s u (writeDesc r u)
  | rejectedStart {u : State} : NextCommand s 1 → busy s = true → Effect s u (commandError u)
  | acceptedStart {u : State} : NextCommand s 1 → busy s = false → Effect s u (startRun u)
  | abort {u : State} : NextCommand s 2 → Effect s u (abortRun u)
  | reserved {u : State} (op : Nat) : 3 ≤ op → NextCommand s op → Effect s u (commandError u)
  | sequencer {u t : State} : Next s .seq ∨ s.script = [] → sequencerStep exec u = .next t → Effect s u t
  | consumer {u : State} : Next s .xfer → Effect s u (consumerStep u)
  | reset {u : State} : Next s .rst → Effect s u (applyReset u)

/-- A host access has one of the host's effects. -/
theorem effect_of_host {s u t : State} {we : Bool} {a : BitVec 6} {d : Word} (hn : Next s (.host we a d))
    (hb : busy u = busy s) (ht : act (.host we a d) u = .next t) : Effect s u t := by
  have hhost : NextHost s := ⟨we, a, d, hn⟩
  obtain ⟨t', ht', hcases⟩ := host_cases we a d u
  obtain rfl : t' = t := by simpa [ht'] using ht
  rcases hcases with rfl | ⟨v, rfl⟩ | ⟨r, rfl, -, -⟩ | ⟨rfl, ha, hcmd⟩
  · exact .nothing
  · exact .read v hhost
  · exact .descriptorWrite r hhost
  · rcases hcmd with ⟨hop, hbu, rfl⟩ | ⟨hop, hbu, rfl⟩ | ⟨hop, rfl⟩ | ⟨hop, rfl⟩
    · exact .rejectedStart ⟨a, d, hn, ha, hop⟩ (hb ▸ hbu)
    · exact .acceptedStart ⟨a, d, hn, ha, hop⟩ (hb ▸ hbu)
    · exact .abort ⟨a, d, hn, ha, hop⟩
    · exact .reserved _ hop ⟨a, d, hn, ha, rfl⟩

/-- Every step has one of the effects, on the state with another schedule. -/
theorem step_has_effect {s t : State} (h : step s = .next t) : ∃ x, Effect s { s with script := x } t := by
  rcases step_effect h with ⟨u, hsame, hagent⟩ | ⟨x, rfl⟩
  · obtain ⟨x, rfl⟩ : ∃ x, u = { s with script := x } := hsame.elim (fun hu => ⟨s.script, hu⟩) id
    refine ⟨x, ?_⟩
    rcases hagent with ⟨we, a, d, hn, ht⟩ | ⟨hn, ht⟩ | ⟨hn, rfl⟩ | ⟨hn, rfl⟩
    · exact effect_of_host hn rfl ht
    · exact .sequencer hn ht
    · exact .consumer hn
    · exact .reset hn
  · exact ⟨x, .nothing⟩

/-! ### The registers and their writers -/

/-- Settles O43: no effect writes them. -/
theorem romAndParametersNeverChange : Obligations.RomAndParametersNeverChange := by
  intro s t h
  suffices hsame : t.cfg = s.cfg ∧ t.rom = s.rom from ⟨hsame.1, fun _ => by rw [hsame.2]⟩
  obtain ⟨x, heffect⟩ := step_has_effect h
  cases heffect with
  | sequencer _ ht =>
    obtain ⟨hcfg, hrom, -⟩ := sequencerStep_frame ht
    exact ⟨hcfg, hrom⟩
  | consumer =>
    obtain ⟨hcfg, hrom, -⟩ := consumerStep_frame { s with script := x }
    exact ⟨hcfg, hrom⟩
  | _ => exact ⟨rfl, rfl⟩

/-- Settles O39: of the effects only an accepted START and reset write them. -/
theorem workingRegistersAreWrittenOnlyByStart : Obligations.WorkingRegistersAreWrittenOnlyByStart := by
  intro s t h
  obtain ⟨x, heffect⟩ := step_has_effect h
  cases heffect with
  | acceptedStart hn hb => exact .inr (.inl ⟨hn, hb, rfl⟩)
  | reset hn => exact .inr (.inr ⟨hn, rfl⟩)
  | sequencer _ ht =>
    obtain ⟨-, -, hwork, -⟩ := sequencerStep_frame ht
    exact .inl hwork
  | consumer =>
    obtain ⟨-, -, hwork, -⟩ := consumerStep_frame { s with script := x }
    exact .inl hwork
  | _ => exact .inl rfl

/-- Settles O40: of the effects only a descriptor write and reset write them. -/
theorem descriptorRegistersAreWrittenOnlyByTheHost : Obligations.DescriptorRegistersAreWrittenOnlyByTheHost := by
  intro s t h
  obtain ⟨x, heffect⟩ := step_has_effect h
  cases heffect with
  | descriptorWrite _ hn => exact .inr (.inl hn)
  | reset hn => exact .inr (.inr ⟨hn, rfl⟩)
  | sequencer _ ht =>
    obtain ⟨-, -, -, hdesc, -⟩ := sequencerStep_frame ht
    exact .inl hdesc
  | consumer =>
    obtain ⟨-, -, -, hdesc, -⟩ := consumerStep_frame { s with script := x }
    exact .inl hdesc
  | _ => exact .inl rfl

/-! ### CMDERR -/

/-- A command at the head of the schedule: the step is the meaning of its opcode (R82, R83). -/
theorem step_command {s : State} {op : Nat} (h : NextCommand s op) :
    ∃ d : Word, d.toNat % 256 = op ∧ step s = exec (.wrCmd d) { s with script := s.script.tail } := by
  obtain ⟨a, d, hn, ha, hop⟩ := h
  exact ⟨d, hop, (step_next hn).trans (act_command d _ ha)⟩

/-- START while busy (R115). -/
theorem step_rejectedStart {s : State} (h : NextCommand s 1) (hb : busy s = true) :
    step s = .next (commandError { s with script := s.script.tail }) := by
  obtain ⟨d, hop, hstep⟩ := step_command h
  rw [hstep, (execWrCmd_cases d _).2.1 hop]
  exact if_pos hb

/-- START while not busy (R114). -/
theorem step_acceptedStart {s : State} (h : NextCommand s 1) (hb : busy s = false) :
    step s = .next (startRun { s with script := s.script.tail }) := by
  obtain ⟨d, hop, hstep⟩ := step_command h
  rw [hstep, (execWrCmd_cases d _).2.1 hop]
  exact if_neg (ne_true_of_eq_false hb)

/-- ABORT in any state (R116). -/
theorem step_abort {s : State} (h : NextCommand s 2) :
    step s = .next (abortRun { s with script := s.script.tail }) := by
  obtain ⟨d, hop, hstep⟩ := step_command h
  rw [hstep, (execWrCmd_cases d _).2.2.1 hop]

/-- A reserved opcode in any state (R117). -/
theorem step_reserved {s : State} {op : Nat} (hop : 3 ≤ op) (h : NextCommand s op) :
    step s = .next (commandError { s with script := s.script.tail }) := by
  obtain ⟨d, rfl, hstep⟩ := step_command h
  rw [hstep, (execWrCmd_cases d _).2.2.2 hop]

/-- CMDERR changes only by the commands and by reset (R28). -/
theorem cmdErr_cases {s t : State} (h : step s = .next t) :
    t.cmdErr = s.cmdErr ∨
      t.cmdErr = true ∧ (NextCommand s 1 ∧ busy s = true ∨ ∃ op, 3 ≤ op ∧ NextCommand s op) ∨
      t.cmdErr = false ∧ (NextCommand s 2 ∨ Next s .rst) := by
  obtain ⟨x, heffect⟩ := step_has_effect h
  cases heffect with
  | rejectedStart hn hb => exact .inr (.inl ⟨rfl, .inl ⟨hn, hb⟩⟩)
  | abort hn => exact .inr (.inr ⟨rfl, .inl hn⟩)
  | reserved op hop hn => exact .inr (.inl ⟨rfl, .inr ⟨op, hop, hn⟩⟩)
  | reset hn => exact .inr (.inr ⟨rfl, .inr hn⟩)
  | sequencer _ ht =>
    obtain ⟨-, -, -, -, hcmd, -⟩ := sequencerStep_frame ht
    exact .inl hcmd
  | consumer =>
    obtain ⟨-, -, -, -, hcmd, -⟩ := consumerStep_frame { s with script := x }
    exact .inl hcmd
  | _ => exact .inl rfl

/-- Settles O41: by the effects that write CMDERR; the two commands that set it have no other effect. -/
theorem cmdErrIsSetAndClearedOnlyByCommands : Obligations.CmdErrIsSetAndClearedOnlyByCommands := by
  intro s t h
  refine ⟨fun hs ht => ?_, fun hs ht => ?_, fun hn hb => ?_, fun op hop hn => ?_⟩
  · rcases cmdErr_cases h with hsame | ⟨-, hset⟩ | ⟨hclear, -⟩
    · simp [hsame, hs] at ht
    · exact hset
    · simp [hclear] at ht
  · rcases cmdErr_cases h with hsame | ⟨hset, -⟩ | ⟨-, hclear⟩
    · simp [hsame, hs] at ht
    · simp [hset] at ht
    · exact hclear
  · cases (step_rejectedStart hn hb).symm.trans h
    rfl
  · cases (step_reserved hop hn).symm.trans h
    rfl

/-! ### The output register and POS -/

/-- Settles O37: with a pair presented the run is in EMIT, so a START is rejected and the sequencer has no step. -/
theorem presentedPairIsStable : Obligations.PresentedPairIsStable := by
  intro s t hinv hv h
  have hs := (hinv.valid hv).1
  obtain ⟨x, heffect⟩ := step_has_effect h
  have hkept {t : State} (ht : SameOutput s t) (hp : t.pos = s.pos) :
      (SameOutput s t ∧ (outPorts t).outPos = (outPorts s).outPos) ∨ Next s .xfer ∨ NextCommand s 2 ∨ Next s .rst :=
    .inl ⟨ht, hp⟩
  cases heffect with
  | acceptedStart _ hb => simp [busy, hs] at hb
  | abort hn => exact .inr (.inr (.inl hn))
  | sequencer _ ht =>
    cases (Resting.seq_of_presented (s := { s with script := x }) hs hv).symm.trans ht
    exact hkept ⟨rfl, rfl, rfl, rfl⟩ rfl
  | consumer hn => exact .inr (.inl hn)
  | reset hn => exact .inr (.inr (.inr hn))
  | _ => exact hkept ⟨rfl, rfl, rfl, rfl⟩ rfl

/-- A turn of the sequencer keeps `POS`, adds 1 to it or clears it (R161, R163); below `W_LEN` it does not wrap. -/
theorem sequencerStep_pos {s t : State} (h : sequencerStep exec s = .next t) :
    t.pos = s.pos ∨ t.pos.toNat = s.pos.toNat + 1 ∨ t.pos = 0 := by
  rcases seq_cases h with
    ⟨rfl, -, -⟩ | ⟨-, -, rfl⟩ | ⟨-, -, -, rfl⟩ | ⟨-, -, rfl⟩ | ⟨hc, -, rfl⟩ | ⟨hl, hload, -⟩
  · exact .inl rfl
  · exact .inr (.inr rfl)
  · exact .inl rfl
  · exact .inl rfl
  · rcases checkStep_cases (indexOfByte s.work.pack s.pos.toNat (fetchedByte s)) (afterFetch s) with
      ⟨-, hstep⟩ | ⟨code, -, -, hstep⟩ <;> rw [hstep]
    · exact .inr (.inl (by simpa using pos_succ ((canCheck_iff s).mp hc).2 (len_lt s.work)))
    · exact .inl (by simp)
  · obtain ⟨k, -, -, rfl⟩ := loadEntry_afterFetch hl hload
    exact .inl (by simp)

/-- Settles O38: by the effects; a transfer is of a pair below `W_LEN`, so `POS` does not wrap. -/
theorem positionStepsByOneOrClears : Obligations.PositionStepsByOneOrClears := by
  intro s t hinv h
  obtain ⟨x, heffect⟩ := step_has_effect h
  cases heffect with
  | acceptedStart => exact .inr (.inr rfl)
  | abort => exact .inr (.inr rfl)
  | reset => exact .inr (.inr rfl)
  | sequencer hn ht =>
    rcases sequencerStep_pos ht with hsame | hsucc | hzero
    · exact .inl hsame
    · exact .inr (.inl ⟨hsucc, hn.elim .inl fun hnil => .inr (.inr hnil)⟩)
    · exact .inr (.inr hzero)
  | consumer hn =>
    rcases consumer_cases { s with script := x } with ⟨-, hv, hstep⟩ | ⟨-, hstep⟩ <;> rw [hstep]
    · exact .inr (.inl ⟨pos_succ (hinv.valid hv).2 (len_lt s.work), .inr (.inl hn)⟩)
    · exact .inl rfl
  | _ => exact .inl rfl

end Sys2Proof.Proofs.Effects

/-! ## Reset and the start of a run -/

namespace Sys2Proof.Proofs.ResetAndStart

open Sys2Proof.Machine Sys2Proof.Safety
open Sys2Proof.Proofs.StatusInvariants Sys2Proof.Proofs.RunInvariant Sys2Proof.Proofs.RomReads
open Sys2Proof.Proofs.Sequencer

/-- STATUS with no error, no command error and nothing presented shows STATE and BUSY only (R25, R119). -/
theorem statusWord_of_clear {s : State} (hcode : s.errCode = .none) (hidx : s.errIdx = 0) (hcmd : s.cmdErr = false)
    (hvalid : s.outValid = false) :
    statusWord s = BitVec.ofNat 32 (8 * (busy s).toNat + (seqStateCode s.seqState).toNat) := by
  apply BitVec.eq_of_toNat_eq
  have hbusy := (busy s).toNat_le
  have hstate := (seqStateCode s.seqState).isLt
  rw [HostInterface.statusWord_toNat, hcode, hidx, hcmd, hvalid, BitVec.toNat_ofNat, Nat.mod_eq_of_lt (by omega)]
  simp [errCodeCode]

/-- Settles O7: the fields of `State.resetOf`. -/
theorem resetStateHoldsTheResetValues : Obligations.ResetStateHoldsTheResetValues :=
  ⟨fun _ _ => ⟨_, rfl, rfl, rfl, rfl, rfl, rfl, rfl, rfl, rfl, rfl, rfl, rfl, rfl, statusWord_of_clear rfl rfl rfl rfl, rfl, rfl,
    rfl⟩, rfl⟩

/-- An edge with `rst = 1` is the reset alone (R230). -/
theorem run_resetEdge {s : State} {p : EdgeInputs} {rest : List Line} (hp : p.rst = true)
    (hs : s.script = .expand (.edge p) :: rest) :
    core.run 2 s = .next (applyReset { s with script := rest }) := by
  have hedge : expandMacro (.edge p) s ++ rest = .act .rst :: rest := by simp [expandMacro, edgeLines, hp]
  rw [run_step (step_expand hs), hedge]
  exact run_step (n := 0) (step_act (s := { s with script := .act .rst :: rest }) rfl)

/-- Settles O8: the edge's reset is `applyReset`, and in IDLE an empty schedule changes nothing. -/
theorem resetEdgeDominatesEveryOtherInput : Obligations.ResetEdgeDominatesEveryOtherInput := by
  intro s p rest hp hs
  refine ⟨_, run_resetEdge hp hs, rfl, rfl, rfl, rfl, rfl, rfl, rfl, rfl, rfl, rfl, rfl, rfl, rfl, rfl, rfl, rfl, rfl,
    ⟨rfl, fun _ => rfl⟩, fun hrest => ?_⟩
  rw [step_nil hrest]
  exact Resting.seq_of_not_busy (s := applyReset { s with script := rest }) rfl

/-- Settles O20: START is `startRun` where the run is not busy. -/
theorem startWhileIdleBeginsTheCheckPass : Obligations.StartWhileIdleBeginsTheCheckPass := by
  intro s hs
  have hb : ¬ busy s = true := ne_true_of_eq_false ((busy_false_iff s).mpr hs)
  exact ⟨startRun s, if_neg hb, rfl, rfl, rfl, rfl, rfl, rfl, rfl, rfl, rfl, rfl, rfl, rfl, rfl, rfl, rfl, rfl, rfl, rfl,
    rfl, rfl, fun _ => rfl⟩

/-- CHECK_END at the head of the schedule (R163). -/
theorem step_checkEnd {s : State} {rest : List Line} (hs : s.script = lineStep :: rest) (hstate : s.seqState = .check)
    (hp : s.pos = s.work.len) : step s = .next (endCheck { s with script := rest }) :=
  (step_act hs).trans (seq_checkEnd (s := { s with script := rest }) hstate hp)

/-- EMIT_END at the head of the schedule (R165). -/
theorem step_emitEnd {s : State} {rest : List Line} (hs : s.script = lineStep :: rest) (hstate : s.seqState = .emit)
    (hv : s.outValid = false) (hp : s.pos = s.work.len) : step s = .next (endEmit { s with script := rest }) :=
  (step_act hs).trans (seq_emitEnd (s := { s with script := rest }) hstate hv hp)

/-- Settles O10: a record of length 0 passes CHECK_END and EMIT_END at once. -/
theorem startAfterResetEndsWithNoRead : Obligations.StartAfterResetEndsWithNoRead := by
  intro c rom rest
  refine ⟨endEmit (endCheck (startRun { State.resetOf c rom with script := rest })), ?_,
    statusWord_of_clear rfl rfl rfl rfl, rfl, rfl, rfl, rfl⟩
  rw [run_step (step_start rfl rfl), run_step (step_checkEnd rfl rfl rfl), run_step (step_emitEnd rfl rfl rfl rfl)]
  rfl

/-! ### The invariants at reset -/

theorem widthInv_reset {c : Config} {rom : Memory} (hc : c.wf) (hrom : rom.wf = true) (script : List Line) :
    WidthInv { State.resetOf c rom with script := script } := by
  have hzero : (0 : RomBase).toNat < 2 ^ c.romAw := by simp
  exact ⟨hc, hrom, hzero, hzero, hzero, hzero⟩

/-- Settles O47: each invariant's own base case; `State.reset` is the reset state of the default build. -/
theorem resetMeetsTheInvariants : Obligations.ResetMeetsTheInvariants := by
  have hreset (c : Config) (rom : Memory) (script : List Line) (hc : c.wf) (hrom : rom.wf = true) :
      StatusInv { State.resetOf c rom with script := script } ∧ RunInv { State.resetOf c rom with script := script } ∧
      RomPortInv { State.resetOf c rom with script := script } ∧ WidthInv { State.resetOf c rom with script := script } :=
    ⟨statusInv_reset c rom script, runInv_reset c rom script, romPortInv_of_no_reads rfl rfl,
      widthInv_reset hc hrom script⟩
  exact ⟨hreset, hreset Config.default [] [] (by decide) rfl⟩

/-! ### The widths along every step -/

/-- The widths speak of the parameters, the ROM and the base registers only. -/
theorem widthInv_congr {s t : State} (h : WidthInv s) (hcfg : t.cfg = s.cfg) (hrom : t.rom = s.rom)
    (hdesc : t.desc = s.desc) (hwork : t.work = s.work) : WidthInv t := by
  constructor <;> simp only [hcfg, hrom, hdesc, hwork]
  exacts [h.cfg, h.rom, h.descDict, h.descSeq, h.workDict, h.workSeq]

/-- A descriptor write stores at most `ROM_AW` bits of a base (R104, R106). -/
theorem widthInv_writeDesc {s : State} {r : Record} {d : Word} (h : WidthInv s)
    (hdict : r.dictBase = s.desc.dictBase ∨ r.dictBase = baseOfWord s.cfg.romAw d)
    (hseq : r.seqBase = s.desc.seqBase ∨ r.seqBase = baseOfWord s.cfg.romAw d) : WidthInv (writeDesc r s) := by
  have hword := baseOfWord_lt h.cfg.2.1 d
  refine ⟨h.cfg, h.rom, ?_, ?_, h.workDict, h.workSeq⟩
  · rcases hdict with he | he <;> rw [writeDesc_desc, he]
    exacts [h.descDict, hword]
  · rcases hseq with he | he <;> rw [writeDesc_desc, he]
    exacts [h.descSeq, hword]

/-- A host access keeps the widths: an accepted START copies the descriptor registers (R39). -/
theorem widthInv_host {s t : State} {we : Bool} {a : BitVec 6} {d : Word} (h : WidthInv s)
    (ht : act (.host we a d) s = .next t) : WidthInv t := by
  obtain ⟨u, hu, hcases⟩ := host_cases we a d s
  obtain rfl : u = t := by simpa [hu] using ht
  rcases hcases with rfl | ⟨v, rfl⟩ | ⟨r, rfl, hdict, hseq⟩ | ⟨-, -, hcmd⟩
  · exact h
  · exact widthInv_congr h rfl rfl rfl rfl
  · exact widthInv_writeDesc h hdict hseq
  · rcases hcmd with ⟨-, -, rfl⟩ | ⟨-, -, rfl⟩ | ⟨-, rfl⟩ | ⟨-, rfl⟩
    · exact widthInv_congr h rfl rfl rfl rfl
    · exact ⟨h.cfg, h.rom, h.descDict, h.descSeq, h.descDict, h.descSeq⟩
    · exact widthInv_congr h rfl rfl rfl rfl
    · exact widthInv_congr h rfl rfl rfl rfl

/-- Settles O51: by the agents of a step; the sequencer and the consumer write none of these registers. -/
theorem stepKeepsTheWidths : Obligations.StepKeepsTheWidths :=
  step_keeps (fun _ _ _ _ _ h ht => widthInv_host h ht)
    (fun _ _ h ht => by
      obtain ⟨hcfg, hrom, hwork, hdesc, -⟩ := sequencerStep_frame ht
      exact widthInv_congr h hcfg hrom hdesc hwork)
    (fun s h => by
      obtain ⟨hcfg, hrom, hwork, hdesc, -⟩ := consumerStep_frame s
      exact widthInv_congr h hcfg hrom hdesc hwork)
    (fun s h => widthInv_congr (widthInv_reset h.cfg h.rom []) rfl rfl rfl rfl)
    (fun _ _ h => widthInv_congr h rfl rfl rfl rfl)

end Sys2Proof.Proofs.ResetAndStart

/-! ## Descriptor writes in the schedule -/

namespace Sys2Proof.Proofs.DescriptorScripts

open Sys2Proof.Machine Sys2Proof.Safety
open Sys2Proof.Proofs.HostInterface Sys2Proof.Proofs.DescriptorWrites

/-- A descriptor write at the head of the schedule (R93, R102). -/
theorem step_descriptorWrite {s : State} {a : BitVec 6} {d : Word} {rest : List Line} {i : Instr}
    (hs : s.script = .act (.host true a d) :: rest) (hdec : decodeHost (hostBits true a) d = i)
    (hi : isDescriptorWrite i = true) :
    step s = .next { s with desc := writtenDesc s.cfg s.desc i, script := rest } := by
  rw [step_act hs, act, hdec, exec_descriptorWrite hi]
  rfl

/-- A read at the head of the schedule (R93, R101). -/
theorem step_read {s : State} {a : BitVec 6} {d : Word} {rest : List Line} {i : Instr}
    (hs : s.script = .act (.host false a d) :: rest) (hdec : decodeHost (hostBits false a) d = i)
    (hi : isHostRead i = true) :
    step s = .next { s with hrdata := readValue i { s with script := rest }, script := rest } := by
  rw [step_act hs, act, hdec, exec_read hi]
  rfl

/-! ### LOAD -/

/-- The descriptor after the six writes of a LOAD (R94, R103 to R108). -/
def loadedDesc (c : Config) (dict n seq len carrier pack : Word) : Record :=
  { dictBase := baseOfWord c.romAw dict, dictN := n.extractLsb' 0 9, seqBase := baseOfWord c.romAw seq
    len := len.extractLsb' 0 16, carrier := carrier.extractLsb' 0 16, pack := packOfBit (pack.getLsbD 0) }

/-- The seven steps of a LOAD: its expansion and the six writes. -/
theorem run_load {s : State} {dict n seq len carrier pack : Word} {rest : List Line}
    (hs : s.script = .expand (.load dict n seq len carrier pack) :: rest) :
    core.run 7 s =
      .next { s with desc := loadedDesc s.cfg dict n seq len carrier pack, script := rest } := by
  rw [run_step (step_expand hs),
    run_step (step_descriptorWrite rfl (decodeHost_cases true 0x10 dict) rfl),
    run_step (step_descriptorWrite rfl (decodeHost_cases true 0x14 n) rfl),
    run_step (step_descriptorWrite rfl (decodeHost_cases true 0x18 seq) rfl),
    run_step (step_descriptorWrite rfl (decodeHost_cases true 0x1C len) rfl),
    run_step (step_descriptorWrite rfl (decodeHost_cases true 0x20 carrier) rfl),
    run_step (step_descriptorWrite rfl (decodeHost_cases true 0x0C pack) rfl)]
  rfl

theorem packOfBit_eq_byte_iff (d : Word) : packOfBit (d.getLsbD 0) = .byte ↔ d.toNat % 2 = 1 := by
  rw [packOfBit_word]
  by_cases h : d.toNat % 2 = 1 <;> simp [h]

/-- Settles O46: the six registers hold the low bits of the operands. -/
theorem loadWritesTheSixDescriptorRegisters : Obligations.LoadWritesTheSixDescriptorRegisters := by
  rintro s dict n seq len carrier pack rest ⟨-, hromAw, -⟩ hs
  refine ⟨_, run_load hs, baseOfWord_toNat hromAw dict, ?_, baseOfWord_toNat hromAw seq, ?_, ?_, ?_, rfl, rfl⟩
  · simp [loadedDesc]
  · simp [loadedDesc]
  · simp [loadedDesc]
  · exact packOfBit_eq_byte_iff pack

/-! ### A write, then a read of the same word -/

/-- The two steps of a descriptor write and a read: the read returns the written register's value. -/
theorem run_write_read {s : State} {a b : BitVec 6} {d e : Word} {rest : List Line} {i j : Instr}
    (hs : s.script = .act (.host true a d) :: .act (.host false b e) :: rest)
    (hi : decodeHost (hostBits true a) d = i) (hiw : isDescriptorWrite i = true)
    (hj : decodeHost (hostBits false b) e = j) (hjr : isHostRead j = true) :
    core.run 2 s = .next { s with
      desc := writtenDesc s.cfg s.desc i
      hrdata := readValue j { s with desc := writtenDesc s.cfg s.desc i, script := rest }, script := rest } := by
  rw [run_step (step_descriptorWrite hs hi hiw), run_step (step_read rfl hj hjr)]
  rfl

/-- A stored field of `n` bits, read back zero-extended (R105, R107, R108, R112). -/
theorem lowBits_readBack {n : Nat} (hn : n ≤ 32) (d : Word) :
    ((d.extractLsb' 0 n).setWidth 32).toNat = d.toNat % 2 ^ n := by
  rw [BitVec.toNat_setWidth_of_le hn, lowBits_eq_ofNat, BitVec.toNat_ofNat]

/-- A stored base, read back zero-extended (R104, R106, R112). -/
theorem base_readBack {romAw : Nat} (h : romAw ≤ 24) (d : Word) :
    ((baseOfWord romAw d).setWidth 32).toNat = d.toNat % 2 ^ romAw := by
  rw [BitVec.toNat_setWidth_of_le (by decide), baseOfWord_toNat h]

/-- MODE.PACK, read back (R103, R112). -/
theorem pack_readBack (d : Word) : ((bit (packBit (packOfBit (d.getLsbD 0)))).setWidth 32).toNat = d.toNat % 2 ^ 1 := by
  rw [packOfBit_word]
  by_cases h : d.toNat % 2 = 1
  · simp [h, packBit, bit]
  · rw [if_neg h, show d.toNat % 2 ^ 1 = 0 by omega]
    rfl

/-- The write and the read of one word are those of one register, and the read returns the implemented bits of what the write
stores. -/
theorem write_read_register {c : Config} {a b : BitVec 6} {d e : Word} {bits : Nat} (hromAw : c.romAw ≤ 24)
    (hword : a.toNat / 4 = b.toNat / 4)
    (hbits : a.toNat / 4 = 3 ∧ bits = 1 ∨ (a.toNat / 4 = 4 ∨ a.toNat / 4 = 6) ∧ bits = c.romAw ∨
      a.toNat / 4 = 5 ∧ bits = 9 ∨ (a.toNat / 4 = 7 ∨ a.toNat / 4 = 8) ∧ bits = 16) :
    ∃ i j, decodeHost (hostBits true a) d = i ∧ isDescriptorWrite i = true ∧
      decodeHost (hostBits false b) e = j ∧ isHostRead j = true ∧
      ∀ u : State, ∀ r, u.desc = writtenDesc c r i → (readValue j u).toNat = d.toNat % 2 ^ bits := by
  simp only [decodeHost_cases, ← hword]
  rcases hbits with ⟨ha, rfl⟩ | ⟨ha | ha, rfl⟩ | ⟨ha, rfl⟩ | ⟨ha | ha, rfl⟩ <;> rw [ha] <;>
    refine ⟨_, _, rfl, rfl, rfl, rfl, fun u r hu => ?_⟩ <;> simp only [readValue, hu, writtenDesc]
  · exact pack_readBack d
  · exact base_readBack hromAw d
  · exact base_readBack hromAw d
  · exact lowBits_readBack (by decide) d
  · exact lowBits_readBack (by decide) d
  · exact lowBits_readBack (by decide) d

/-- Settles O12: the two steps by the register of the word. -/
theorem writeThenReadReturnsTheImplementedBits : Obligations.WriteThenReadReturnsTheImplementedBits := by
  rintro s a b d e rest bits ⟨-, hromAw, -⟩ hs hword hbits
  obtain ⟨i, j, hi, hiw, hj, hjr, hvalue⟩ := write_read_register (d := d) (e := e) hromAw hword hbits
  exact ⟨_, run_write_read hs hi hiw hj hjr, hvalue _ s.desc rfl, rfl, rfl, ⟨rfl, rfl, rfl, rfl⟩, ⟨rfl, rfl, rfl, rfl⟩,
    ⟨rfl, rfl, rfl⟩, ⟨rfl, fun _ => rfl⟩, rfl, rfl, rfl⟩

end Sys2Proof.Proofs.DescriptorScripts

/-! ## Clock edges -/

namespace Sys2Proof.Proofs.Edges

open Sys2Proof.Machine Sys2Proof.Safety
open Sys2Proof.Proofs.Effects Sys2Proof.Proofs.Sequencer

/-- What comes first at an edge without reset: the transfer or the sequencer's step, if either happens (R207). -/
def edgeFirst (p : EdgeInputs) (s : State) : List Line :=
  if s.outValid then (if p.outReady then [.act .xfer] else []) else (if p.tick then [.act .seq] else [])

theorem edgeFirst_cases (p : EdgeInputs) (s : State) :
    edgeFirst p s = [] ∨ edgeFirst p s = [.act .xfer] ∧ s.outValid = true ∧ p.outReady = true ∨
      edgeFirst p s = [.act .seq] ∧ s.outValid = false ∧ p.tick = true := by
  unfold edgeFirst
  cases s.outValid <;> cases p.outReady <;> cases p.tick <;> simp

theorem edgeFirst_transfer {p : EdgeInputs} {s : State} (hv : s.outValid = true) (hready : p.outReady = true) :
    edgeFirst p s = [.act .xfer] := by
  rw [edgeFirst, if_pos hv, if_pos hready]

theorem edgeFirst_step {p : EdgeInputs} {s : State} (hv : s.outValid = false) (htick : p.tick = true) :
    edgeFirst p s = [.act .seq] := by
  rw [edgeFirst, if_neg (ne_true_of_eq_false hv), if_pos htick]

/-- An edge without reset stands for its first event and then the host access (R207). -/
theorem step_edge {s : State} {p : EdgeInputs} {rest : List Line} (hrst : p.rst = false)
    (hs : s.script = .expand (.edge p) :: rest) :
    step s = .next { s with
      script := edgeFirst p s ++ (if p.hsel then [.act (.host p.hwe p.haddr p.hwdata)] else []) ++ rest } := by
  rw [step_expand hs, expandMacro, edgeLines, if_neg (ne_true_of_eq_false hrst)]
  rfl

/-- An edge whose host access is a command and whose first event leaves `u`: the command meets `u` (R207). -/
theorem run_edge_command {s u : State} {p : EdgeInputs} {rest : List Line} {e : Event} {op : Nat}
    (hs : s.script = .expand (.edge p) :: rest) (hrst : p.rst = false) (hsel : p.hsel = true) (hwe : p.hwe = true)
    (ha : p.haddr.toNat / 4 = 0) (hop : p.hwdata.toNat % 256 = op) (hfirst : edgeFirst p s = [.act e])
    (hu : act e { s with script := .act (.host true p.haddr p.hwdata) :: rest } = .next u)
    (hscript : u.script = .act (.host true p.haddr p.hwdata) :: rest) :
    NextCommand u op ∧ ∀ t, step u = .next t → core.run 3 s = .next t := by
  refine ⟨⟨p.haddr, p.hwdata, by rw [Next, hscript]; rfl, ha, hop⟩, fun t ht => ?_⟩
  have hedge := step_edge hrst hs
  rw [hfirst, hsel, if_pos rfl, hwe] at hedge
  have hfirstStep : step { s with script := .act e :: .act (.host true p.haddr p.hwdata) :: rest } = .next u :=
    (step_act rfl).trans hu
  exact (run_step hedge).trans ((run_step (n := 1) hfirstStep).trans (run_step (n := 0) ht))

/-- Settles O9: the edge's own lines, then the command in the state that the first event leaves. -/
theorem edgeTakesTheHostAccessLast : Obligations.EdgeTakesTheHostAccessLast := by
  refine ⟨fun s p rest hrst hs => ?order, fun s p rest hs hrst hsel hwe ha hop htick hstate hv hp => ?emitEnd,
    fun s p rest hs hrst hsel hwe ha hop hready hstate hv => ?transfer,
    fun s p rest hs hrst hsel hwe ha hop htick hinv hstate hp hfail => ?checkFail⟩
  case order =>
    exact ⟨edgeFirst p s, edgeFirst_cases p s, edgeFirst_transfer, edgeFirst_step, step_edge hrst hs⟩
  case emitEnd =>
    obtain ⟨hn, hrun⟩ := run_edge_command hs hrst hsel hwe ha hop (edgeFirst_step hv htick)
      (seq_emitEnd hstate hv hp) rfl
    exact ⟨_, hrun _ (step_acceptedStart hn rfl), rfl, rfl, rfl⟩
  case transfer =>
    obtain ⟨hn, hrun⟩ := run_edge_command hs hrst hsel hwe ha hop (edgeFirst_transfer hv hready)
      (congrArg Host.Outcome.next (consumerStep_presented hstate hv)) rfl
    exact ⟨_, hrun _ (step_abort hn), rfl, rfl, rfl⟩
  case checkFail =>
    have hv := StatusInvariants.outValid_false_of_not_emit hinv.status (by simp [hstate])
    cases hpos : checkPos s.cfg s.rom s.work s.pos.toNat with
    | ok => exact absurd hpos hfail
    | err code k =>
      have hturn := seq_checkFail (RunInv_script hinv (.act (.host true p.haddr p.hwdata) :: rest))
        ((canCheck_iff _).mpr ⟨hstate, hp⟩) hpos
      obtain ⟨-, -, -, hdesc, hcmd, -, -, -, hscript⟩ := sequencerStep_frame hturn
      obtain ⟨hn, hrun⟩ := run_edge_command hs hrst hsel hwe ha hop (edgeFirst_step hv htick) hturn hscript
      exact ⟨_, hrun _ (step_acceptedStart hn rfl), rfl, hdesc, hcmd⟩

end Sys2Proof.Proofs.Edges

/-! ## RUN -/

namespace Sys2Proof.Proofs.StepCount

open Sys2Proof.Machine Sys2Proof.Safety
open Sys2Proof.Proofs.RunInvariant Sys2Proof.Proofs.Sequencer

section

variable {s : State} {k n : Nat} {phase : SeqState} {shown : Bool} {todo rest : List Line}

/-- A RUN is a START, then its loop (R94). -/
theorem runsTo_run (hb : busy s = false) (hs : s.script = .expand .run :: rest) :
    RunsTo s 2 .check false 0 (.expand .runLoop :: rest) :=
  ⟨_, run_succ (run_succ (run_zero s) (step_expand hs)) (step_start hb rfl), RunInv_startRun _, rfl, rfl, rfl, rfl, rfl,
    rfl, rfl⟩

/-- The loop opens a turn: a step of the sequencer and one of the consumer (R94). -/
theorem RunsTo.openTurn (h : RunsTo s k phase shown n (.expand .runLoop :: rest)) (hp : phase ≠ .done ∧ phase ≠ .error) :
    RunsTo s (k + 1) phase shown n (.act .seq :: .act .xfer :: .expand .runLoop :: rest) := by
  obtain ⟨u, hrun, hu⟩ := h
  exact ⟨_, run_succ hrun (step_runLoop hu.todo (hu.phase ▸ hp)), hu.withScript _⟩

/-- The loop ends with the run (R94). -/
theorem RunsTo.closeLoop (h : RunsTo s k phase shown n (.expand .runLoop :: rest)) (hp : phase = .done ∨ phase = .error) :
    RunsTo s (k + 1) phase shown n rest := by
  obtain ⟨u, hrun, hu⟩ := h
  exact ⟨_, run_succ hrun (step_runLoop_ended hu.todo (hu.phase ▸ hp)), hu.withScript _⟩

/-- A turn of the consumer with nothing presented (R167). -/
theorem RunsTo.noTransfer (h : RunsTo s k phase false n (.act .xfer :: todo)) : RunsTo s (k + 1) phase false n todo := by
  obtain ⟨u, hrun, hu⟩ := h
  have hstep : step u = .next { u with script := todo } := (step_act hu.todo).trans
    (congrArg Host.Outcome.next (Resting.consumerStep_of_not_presented (.inr hu.shown)))
  exact ⟨_, run_succ hrun hstep, hu.withScript _⟩

/-- `n` positions that pass take `n` turns of the loop in CHECK. -/
theorem RunsTo.loopChecks (h : RunsTo s k .check false 0 (.expand .runLoop :: rest)) (hn : n ≤ s.desc.len.toNat)
    (hok : ∀ i < n, checkPos s.cfg s.rom s.desc i = .ok) :
    RunsTo s (k + 3 * n) .check false n (.expand .runLoop :: rest) := by
  induction n with
  | zero => exact h
  | succ n ih =>
    have hpass := ih (by omega) fun i hi => hok i (by omega)
    exact ((hpass.openTurn (by simp)).checkNext (by omega) (hok n (by omega))).noTransfer

/-- `n` pairs take `n` turns of the loop in EMIT. -/
theorem RunsTo.loopPairs (h : RunsTo s k .emit false 0 (.expand .runLoop :: rest)) (hn : n ≤ s.desc.len.toNat) :
    RunsTo s (k + 3 * n) .emit false n (.expand .runLoop :: rest) := by
  induction n with
  | zero => exact h
  | succ n ih => exact (((ih (by omega)).openTurn (by simp)).emitLoad (by omega)).transfer (by omega)

/-- A RUN whose positions all pass: `L` turns of each pass, one at the end of each, and the end of the loop. -/
theorem runsTo_run_done (hb : busy s = false) (hall : AllPass s.cfg s.rom s.desc) (hs : s.script = .expand .run :: rest) :
    RunsTo s (6 * s.desc.len.toNat + 9) .done false s.desc.len.toNat rest := by
  have hcheck := (runsTo_run hb hs).loopChecks le_rfl hall
  have hemit := (hcheck.openTurn (by simp)).checkEnd.noTransfer.loopPairs le_rfl
  have hdone := (hemit.openTurn (by simp)).emitEnd.noTransfer.closeLoop (.inl rfl)
  rwa [show 2 + 3 * s.desc.len.toNat + 1 + 1 + 1 + 3 * s.desc.len.toNat + 1 + 1 + 1 + 1 =
    6 * s.desc.len.toNat + 9 by omega] at hdone

/-- A RUN whose first failing position is `p`: `p` turns that pass, one that fails, and the end of the loop. -/
theorem runsTo_run_error {p : Nat} {code : ErrCode} {i : BitVec 8} (hb : busy s = false) (hp : p < s.desc.len.toNat)
    (hbelow : ∀ i < p, checkPos s.cfg s.rom s.desc i = .ok) (herr : checkPos s.cfg s.rom s.desc p = .err code i)
    (hs : s.script = .expand .run :: rest) : RunsTo s (3 * p + 6) .error false p rest := by
  have hcheck := (runsTo_run hb hs).loopChecks hp.le hbelow
  have hfail := ((hcheck.openTurn (by simp)).checkFail hp herr).noTransfer.closeLoop (.inr rfl)
  rwa [show 2 + 3 * p + 1 + 1 + 1 + 1 = 3 * p + 6 by omega] at hfail

end

/-- Settles O59: the run's place after the turns of the loop; in DONE and in ERROR the run invariant says what was delivered. -/
theorem runPseudoOperationDeliversTheRecord : Obligations.RunPseudoOperationDeliversTheRecord := by
  refine ⟨fun s rest hb hall hs => ?_, fun s rest p code k hb hp hbelow herr hs => ?_⟩
  · obtain ⟨u, hrun, hu⟩ := runsTo_run_done hb hall hs
    have hsent := FinishedRuns.delivered_of_done hu.inv hu.phase
    rw [hu.cfg, hu.rom, hu.work] at hsent
    exact ⟨u, hrun, hu.phase, by rw [hu.pos_eq_len, hu.work], hsent, hu.todo⟩
  · obtain ⟨u, hrun, hu⟩ := runsTo_run_error hb hp hbelow herr hs
    obtain ⟨hcode, hidx, hsent⟩ := hu.error_result herr
    exact ⟨u, hrun, hu.phase, hcode, hidx, hu.pos, hsent, hu.shown, hu.todo⟩

end Sys2Proof.Proofs.StepCount

/-! ## POLL -/

namespace Sys2Proof.Proofs.Poll

open Sys2Proof.Machine Sys2Proof.Safety
open Sys2Proof.Proofs.RunInvariant Sys2Proof.Proofs.Sequencer Sys2Proof.Proofs.StepCount

/-! ### One read and its test -/

section

variable {s : State} {others : List (List Event)} {rest : List Line}

/-- Not busy, the read ends the poll (R94). -/
theorem run_poll_ended (hb : busy s = false) (hs : s.script = .expand (.poll others) :: rest) :
    core.run 3 s = .next { s with hrdata := statusWord s, script := rest } :=
  run_succ (run_pollRead hs) (step_pollLoop_ended rfl ((statusWord_busy s).trans hb))

/-- Busy, the read is followed by the other agents' turn and the next read (R94). -/
theorem run_poll_busy (hb : busy s = true) (hs : s.script = .expand (.poll others) :: rest) :
    core.run 3 s = .next { s with
      hrdata := statusWord s, script := betweenReads others ++ .expand (.poll others.tail) :: rest } :=
  run_succ (run_pollRead hs) (step_pollLoop rfl ((statusWord_busy s).trans hb))

/-- The state a read of the poll leaves the sequencer, where the schedule says no more. -/
def polled (s : State) (rest : List Line) : State :=
  { s with hrdata := statusWord s, script := .expand (.poll []) :: rest }

/-- Busy, with no more events in the schedule: the read, then a turn of the sequencer (R174). -/
theorem run_poll_turn {t : State} (hb : busy s = true) (hs : s.script = .expand (.poll []) :: rest)
    (ht : sequencerStep exec (polled s rest) = .next t) : core.run 4 s = .next t := by
  have hseq : step { s with hrdata := statusWord s, script := .act .seq :: .expand (.poll []) :: rest } =
    act .seq (polled s rest) := step_act rfl
  exact run_succ (run_poll_busy hb hs) (hseq.trans ht)

/-- A read does not disturb the run (R101). -/
theorem runInv_polled (h : RunInv s) (rest : List Line) : RunInv (polled s rest) :=
  RunInv_script (runInv_unseen h s.desc s.cmdErr s.romEn (statusWord s) s.romReads) _

/-! ### A pair that no one takes -/

/-- A presented pair has no step but the transfer, so only `hrdata` changes between two reads (R166, R240). -/
theorem run_poll_presented (hstate : s.seqState = .emit) (hv : s.outValid = true)
    (hs : s.script = .expand (.poll []) :: rest) : core.run 4 s = .next { s with hrdata := statusWord s } := by
  have hturn := run_poll_turn ((busy_iff s).mpr (.inr hstate)) hs
    (Resting.seq_of_presented (s := polled s rest) hstate hv)
  rwa [polled, ← hs] at hturn

/-- However long it polls (R240). -/
theorem run_poll_presented_forever (hstate : s.seqState = .emit) (hv : s.outValid = true)
    (hs : s.script = .expand (.poll []) :: rest) (k : Nat) :
    core.run (4 * (k + 1)) s = .next { s with hrdata := statusWord s } := by
  induction k with
  | zero => exact run_poll_presented hstate hv hs
  | succ k ih =>
    rw [Nat.mul_succ, run_add ih]
    exact run_poll_presented (s := { s with hrdata := statusWord s }) hstate hv hs

end

/-! ### A run that fails -/

/-- `p` is the first position of the run that does not pass, with its error. -/
structure FailsAt (s : State) (p : Nat) (code : ErrCode) (k : BitVec 8) : Prop where
  inside : p < s.work.len.toNat
  below : ∀ i < p, checkPos s.cfg s.rom s.work i = .ok
  fails : checkPos s.cfg s.rom s.work p = .err code k

/-- How the poll of a failing run ends: in ERROR at the failing position, the last word read the status there (R171). -/
structure EndedInError (t : State) (p : Nat) (code : ErrCode) (k : BitVec 8) (rest : List Line) : Prop where
  state : t.seqState = .error
  code : t.errCode = code
  index : t.errIdx = k
  pos : t.pos.toNat = p
  delivered : t.delivered = []
  hrdata : t.hrdata = statusWord t
  script : t.script = rest

section

variable {s : State} {p : Nat} {code : ErrCode} {k : BitVec 8} {rest : List Line}

/-- Which position fails is a matter of the record, the parameters and the ROM, which a turn of the sequencer keeps. -/
theorem FailsAt.of_sequencerStep {t : State} (h : FailsAt s p code k) (ht : sequencerStep exec s = .next t) :
    FailsAt t p code k := by
  obtain ⟨hcfg, hrom, hwork, -⟩ := sequencerStep_frame ht
  constructor <;> simp only [hcfg, hrom, hwork]
  exacts [h.inside, h.below, h.fails]

/-- At the failing position: a read, the CHECK_FAIL and the read that finds the run ended. -/
theorem run_poll_checkFail (h : RunInv s) (hstate : s.seqState = .check) (hf : FailsAt s p code k)
    (hp : s.pos.toNat = p) (hs : s.script = .expand (.poll []) :: rest) :
    ∃ t, core.run 7 s = .next t ∧ EndedInError t p code k rest := by
  subst hp
  have hturn := seq_checkFail (runInv_polled h rest) ((canCheck_iff _).mpr ⟨hstate, hf.inside⟩) hf.fails
  obtain ⟨-, -, -, -, -, -, hsent, -, hscript⟩ := sequencerStep_frame hturn
  have hrun := run_poll_turn ((busy_iff s).mpr (.inl hstate)) hs hturn
  refine ⟨_, (run_add hrun).trans (run_poll_ended rfl hscript), rfl, rfl, rfl, ?_, ?_, rfl, rfl⟩
  · rw [raiseDataIntegrity_pos, apply_ite State.pos, afterFetch_pos, ite_self]
    rfl
  · exact hsent.trans (h.quiet (.inl hstate))

/-- With `d` positions to pass before it: `d` reads, each with its CHECK_NEXT, and then the failing position. -/
theorem run_poll_fails {d : Nat} (h : RunInv s) (hstate : s.seqState = .check) (hf : FailsAt s p code k)
    (hp : s.pos.toNat + d = p) (hs : s.script = .expand (.poll []) :: rest) :
    ∃ t, core.run (4 * d + 7) s = .next t ∧ EndedInError t p code k rest := by
  induction d generalizing s with
  | zero => exact run_poll_checkFail h hstate hf hp hs
  | succ d ih =>
    have h' := runInv_polled h rest
    have hlt : s.pos.toNat < s.work.len.toNat := by have := hf.inside; omega
    have hturn := seq_checkNext h' ((canCheck_iff _).mpr ⟨hstate, hlt⟩) (hf.below s.pos.toNat (by omega))
    have hrun := run_poll_turn ((busy_iff s).mpr (.inl hstate)) hs hturn
    have hpos : (advance (afterFetch (polled s rest))).pos.toNat = s.pos.toNat + 1 := by
      simpa [polled] using pos_succ hlt (len_lt s.work)
    have hf' : FailsAt (polled s rest) p code k := ⟨hf.inside, hf.below, hf.fails⟩
    obtain ⟨t, ht, hend⟩ := ih (runInv_sequencerStep h' hturn) (by simp [polled, hstate])
      (hf'.of_sequencerStep hturn) (by omega) (by simp [polled])
    rw [show 4 * (d + 1) + 7 = 4 + (4 * d + 7) by omega, run_add hrun]
    exact ⟨t, ht, hend⟩

end

/-- Settles O60: one read by whether the run is busy; the polls of a presented pair and of a failing run by induction on the
reads. -/
theorem pollIsRepeatedStatusReads : Obligations.PollIsRepeatedStatusReads := by
  refine ⟨fun s others rest => run_poll_ended, fun s es others rest => run_poll_busy, fun s rest => run_poll_busy,
    fun s rest k hstate hv hs => run_poll_presented_forever hstate hv hs k,
    fun s rest p code k h hstate hle hp hbelow herr hs => ?_⟩
  obtain ⟨t, ht, hend⟩ := run_poll_fails (d := p - s.pos.toNat) h hstate ⟨hp, hbelow, herr⟩ (by omega) hs
  have hb : busy t = false := (busy_false_iff t).mpr (.inr (.inr hend.state))
  exact ⟨t, ht, hend.state, hend.code, hend.index, hend.pos, hend.delivered, hend.hrdata, hb, hend.script⟩

end Sys2Proof.Proofs.Poll
